-- ==== Sys2Proof/Word.lean ====
section
/-! DEFINITION. The words of the block: bytes, mode indicators and stream literals (00_scope rules R2, R3, R6). -/

namespace Sys2Proof

/-- A buffer cell or character field: 8 bits (rule R2). -/
abbrev Byte := BitVec 8

/-- A mode indicator: a 4-bit code, bit 3 the most significant (rules R2, R3). -/
abbrev Code := BitVec 4

/-- A bit stream in the order the cursor delivers it: the head is stream position 0 (rules R3, R6). -/
abbrev Bits := List Bool

end Sys2Proof
end

