-- ==== Sys2Proof/Config.lean ====
section
/-! DEFINITION. The parameters of the block (00_scope rule R1). They are fixed for a machine; the state carries them
(State.params) so that every statement about every state holds for every value of them. -/

namespace Sys2Proof

/-- The values rule R1 allows for `SA_CODE`, the mode indicator of structured-append: 2, 3, 5, 7, 8 or 9. -/
inductive SaCode where
  | c2
  | c3
  | c5
  | c7
  | c8
  | c9
deriving DecidableEq, Repr

/-- The parameters of rule R1. -/
structure Params where
  /-- `L_MAX`, the largest stream length in bits. -/
  lMax : Nat
  /-- `BUF_CAP`, the number of byte cells of the output buffer. -/
  bufCap : Nat
  /-- `SA_CODE`, the 4-bit value of the structured-append indicator. -/
  saCode : SaCode
deriving DecidableEq, Repr

/-- The defaults of rule R1 for a given `L_MAX`: `BUF_CAP = floor(L_MAX / 8)`, `SA_CODE = 0b0011`. -/
def Params.defaults (lMax : Nat) : Params := { lMax := lMax, bufCap := lMax / 8, saCode := .c3 }

/-- The parameters `State.reset` carries. DESIGN CHOICE (log 2): rule R1 leaves `L_MAX` open; 23648 is the
suggestion of 92_eei_decisions D23. Unsafe for a statement that rests on this number; the obligations quantify over all. -/
def Config.resetParams : Params := Params.defaults 23648

end Sys2Proof
end

