-- ==== Sys2Proof/Syntax.lean ====
section
/-! DEFINITION. The instructions of the block: its 4-bit mode indicators (30_encoding rules R48, R52, R55), the nine
modes and the tiers they are looked up with. -/

namespace Sys2Proof

/-- The nine modes of rule R52. -/
inductive Mode where
  | endMsg
  | num
  | alnum
  | sa
  | byte
  | fnc1_1
  | eci
  | kanji
  | fnc1_2
deriving DecidableEq, Repr

/-- The tier of a symbol version (10_state rule R16): NONE is "no valid tier". -/
inductive Tier where
  | none
  | small
  | medium
  | large
deriving DecidableEq, Repr

/-- One instruction: a mode indicator as the MODE step dispatches it (rules R55, R71). The seven rows UNDEF of
the opcode table (codes `0110` and `1010` to `1111`) are `undef c` at seven values of `c`, the `UNDEF(c)` of rule
R58 (log 13). The COUNT and D[k] fields of a byte segment are no operands: later steps read them (rules R88, R91). -/
inductive Instr where
  | endMsg
  | num
  | alnum
  | sa
  | byte
  | fnc1_1
  | eci
  | kanji
  | fnc1_2
  | undef (c : Code)
deriving DecidableEq, Repr

end Sys2Proof
end

