-- ==== Sys2Proof/WellFormed.lean ====
section
/-! DEFINITION. Which instruction terms stand for an indicator of the opcode map (30_encoding rules R53, R56). -/

namespace Sys2Proof

/-- The codes that name no mode: 6 and 10 to 15 (rules R53, R56; 90_conflicts C2). -/
def undefinedCodes : List Code := [0b0110, 0b1010, 0b1011, 0b1100, 0b1101, 0b1110, 0b1111]

/-- `UNDEF(c)` is an indicator only for an undefined code `c`; every other constructor has no operand. -/
def Instr.wellFormed : Instr → Bool
  | .undef c => undefinedCodes.contains c
  | .endMsg | .num | .alnum | .sa | .byte | .fnc1_1 | .eci | .kanji | .fnc1_2 => true

end Sys2Proof
end

