-- ==== Sys2Proof/Decode.lean ====
section
/-! DEFINITION. Bit-field assembly (00_scope rule R8), the decoder of mode indicators, total on any bits and any
bytes (30_encoding rules R48, R55, 40_field_width_rom rule R60), the byte packing of streams (20_memory rule R36),
and after them the encoder. -/

namespace Sys2Proof

/-! ## Fields -/

/-- The unsigned value of a field: its first stream bit is the most significant (rule R8, the loop of `Take`). -/
def natOfBits (bs : Bits) : Nat := bs.foldl (fun v b => 2 * v + b.toNat) 0

/-- The low `w` bits of `n`, most significant first (rules R3, R58). -/
def bitsOfNat : Nat → Nat → Bits
  | 0, _ => []
  | w + 1, n => n.testBit w :: bitsOfNat w n

/-- Every bit of bytes laid out by rule R36, fill bits included: position `p` is bit `7 - p mod 8` of byte `p div 8`. -/
def bitsOfBytes (bs : List Byte) : Bits := bs.flatMap (fun b => bitsOfNat 8 b.toNat)

/-- The stream of length `l` that bytes hold (rule R36): `l` says where it ends, and the bits after it are fill, no part of
it. DESIGN CHOICE (log 20): the rule packs `l` bits into enough bytes, and where `bs` has fewer than `l` bits the stream
ends with the last byte. -/
def streamOfBytes (l : Nat) (bs : List Byte) : Bits := (bitsOfBytes bs).take l

/-- Rule R36 the other way on `n` bytes: unused low bits of the last byte are filled with zeros. -/
def bytesOfBits : Nat → Bits → List Byte
  | 0, _ => []
  | n + 1, bs => BitVec.ofNat 8 (natOfBits ((bs.take 8) ++ List.replicate (8 - bs.length) false)) :: bytesOfBits n (bs.drop 8)

/-! ## The code map -/

/-- The 4-bit value of `SA_CODE` (rule R1). -/
def saBits : SaCode → Code
  | .c2 => 0b0010
  | .c3 => 0b0011
  | .c5 => 0b0101
  | .c7 => 0b0111
  | .c8 => 0b1000
  | .c9 => 0b1001

/-- The opcode map of rule R55 as shown, with structured-append at its default `0011`. The codes `0010`, `0011`,
`0101`, `0111`, `1000`, `1001` are the spec's from general knowledge (rule R54, 92_eei_decisions D6). -/
def standardMode (c : Code) : Option Mode :=
  if c = 0b0000 then some .endMsg
  else if c = 0b0001 then some .num
  else if c = 0b0010 then some .alnum
  else if c = 0b0011 then some .sa
  else if c = 0b0100 then some .byte
  else if c = 0b0101 then some .fnc1_1
  else if c = 0b0111 then some .eci
  else if c = 0b1000 then some .kanji
  else if c = 0b1001 then some .fnc1_2
  else none

/-- `modeFromCode(c)` (rule R60): `SA_CODE` is SA, the mode it displaces takes code `0011`, every other row of
rule R55 stays. -/
def modeFromCode (sa : SaCode) (c : Code) : Option Mode :=
  if c = saBits sa then some .sa
  else if c = 0b0011 then standardMode (saBits sa)
  else standardMode c

/-- The instruction of a mode. -/
def instrOfMode : Mode → Instr
  | .endMsg => .endMsg
  | .num => .num
  | .alnum => .alnum
  | .sa => .sa
  | .byte => .byte
  | .fnc1_1 => .fnc1_1
  | .eci => .eci
  | .kanji => .kanji
  | .fnc1_2 => .fnc1_2

/-- The dispatch of rule R71 on a 4-bit code: a code with no mode is UNDEF (rule R81). -/
def decodeCode (sa : SaCode) (c : Code) : Instr :=
  match modeFromCode sa c with
  | some m => instrOfMode m
  | none => .undef c

/-! ## The decoder -/

/-- Why bits are no instruction: the only reason is that fewer than 4 remain (rule R70), since all sixteen codes
have a row. -/
inductive DecodeError where
  | fewerThanFourBits
deriving DecidableEq, Repr

/-- Reads one mode indicator from a stream and returns it with the rest of the stream (rules R48, R71). -/
def decodeBits (sa : SaCode) : Bits → Except DecodeError (Instr × Bits)
  | b3 :: b2 :: b1 :: b0 :: rest => .ok (decodeCode sa (BitVec.ofNat 4 (natOfBits [b3, b2, b1, b0])), rest)
  | _ => .error .fewerThanFourBits

/-- Reads one mode indicator from a stream of length `l` packed into bytes by rule R36. No fill bit is read, so fewer than 4
stream bits are refused whatever the fill. -/
def decodeBytes (sa : SaCode) (l : Nat) (bs : List Byte) : Except DecodeError (Instr × Bits) :=
  decodeBits sa (streamOfBytes l bs)

/-! ## The encoder -/

/-- The code of a mode in the map of rule R55 as shown. -/
def standardCode : Mode → Code
  | .endMsg => 0b0000
  | .num => 0b0001
  | .alnum => 0b0010
  | .sa => 0b0011
  | .byte => 0b0100
  | .fnc1_1 => 0b0101
  | .eci => 0b0111
  | .kanji => 0b1000
  | .fnc1_2 => 0b1001

/-- The mode an instruction names; UNDEF names none (rule R52). -/
def modeOfInstr : Instr → Option Mode
  | .endMsg => some .endMsg
  | .num => some .num
  | .alnum => some .alnum
  | .sa => some .sa
  | .byte => some .byte
  | .fnc1_1 => some .fnc1_1
  | .eci => some .eci
  | .kanji => some .kanji
  | .fnc1_2 => some .fnc1_2
  | .undef _ => none

/-- The code of a mode for a given `SA_CODE` (rule R55): SA sits at `SA_CODE`, the mode displaced at `0011`. -/
def codeOfMode (sa : SaCode) (m : Mode) : Code :=
  if m = .sa then saBits sa
  else if standardCode m = saBits sa then 0b0011
  else standardCode m

/-- The 4-bit indicator of an instruction (rules R55, R58). -/
def encode (sa : SaCode) : Instr → Code
  | .undef c => c
  | .endMsg => codeOfMode sa .endMsg
  | .num => codeOfMode sa .num
  | .alnum => codeOfMode sa .alnum
  | .sa => codeOfMode sa .sa
  | .byte => codeOfMode sa .byte
  | .fnc1_1 => codeOfMode sa .fnc1_1
  | .eci => codeOfMode sa .eci
  | .kanji => codeOfMode sa .kanji
  | .fnc1_2 => codeOfMode sa .fnc1_2

/-- The indicator's four stream bits, most significant first (rules R6, R48). -/
def encodeBits (sa : SaCode) (i : Instr) : Bits := bitsOfNat 4 (encode sa i).toNat

/-! ## The opcode table's numbering -/

/-- `n` 4-bit words of a number, the first from bits 3 to 0, each most significant bit first: the layout of a word
of the opcode table in the stream (log 12). -/
def bitsOfNibbles : Nat → Nat → Bits
  | 0, _ => []
  | n + 1, w => bitsOfNat 4 (w % 16) ++ bitsOfNibbles n (w / 16)

/-- The stream bits of a table word of `nbits` bits, then the longest field that can follow an indicator with every
bit 0 (a 16-bit COUNT, rule R49). The block reads an indicator whatever `nbits` says, so at least one word is laid out. -/
def bitsOfTableWord (nbits w : Nat) : Bits :=
  bitsOfNibbles (max 1 ((nbits + 3) / 4)) w ++ List.replicate 16 false

/-- The instruction the decoder reads from a word of spec/opcode_table.json, at the default `SA_CODE` the table shows. -/
def decodeTableWord (nbits w : Nat) : Option Instr :=
  match decodeBits .c3 (bitsOfTableWord nbits w) with
  | .ok (i, _) => some i
  | .error _ => none

end Sys2Proof
end

