-- ==== Sys2Proof/Machine/Widths.lean ====
section
/-! DEFINITION. The two register widths that vary with the parameters (00_scope rule R2). -/

namespace Sys2Proof.Machine

/-- The smallest width holding `n` (rule R2); no bit is needed for 0 (log 9). -/
def bitlen (n : Nat) : Nat := if n = 0 then 0 else n.log2 + 1

/-- `OFF_W` (rule R2). -/
def offW (p : Params) : Nat := bitlen p.lMax

/-- `OLEN_W` (rule R2). -/
def olenW (p : Params) : Nat := bitlen p.bufCap

end Sys2Proof.Machine
end

