-- ==== Sys2Proof/Machine/State.lean ====
section
/-! DEFINITION. The state of the modelled system (10_state rule R13): the block's registers and buffer, the cursor,
the parameters, and the host's inputs; and its reset value (rule R32). -/

namespace Sys2Proof.Machine

/-- The values of `ST` (rule R14). FAULT is a state of the block, entered by a NEXT state, not a stop of the model. -/
inductive Fsm where
  | idle
  | mode
  | len
  | char
  | done
  | fault
deriving DecidableEq, Repr

/-- The values of `STOP_R` (rule R23); 6 and 7 are excluded (93_implementation_defined I4). -/
inductive StopReason where
  | none
  | noBits
  | endMsg
  | unsupported
  | undefined
  | badVersion
deriving DecidableEq, Repr

/-- The values of `FCAUSE_R` (rule R24). -/
inductive FaultCause where
  | none
  | underrunLen
  | underrunChar
  | overflow
deriving DecidableEq, Repr

/-- The buffer `BUF` as its written cells: indices strictly rising; a cell not listed holds no value (rules R13,
R22; log 11). -/
abbrev Memory := List Host.Cell

/-- The levels at the block's input ports during one clock (rule R28), for parameters `p`. `cur_rem` and `cur_data` are no
fields: they are the cursor's, computed from `stream` and `off`. -/
structure Ports (p : Params) where
  /-- `rst`, active high. -/
  rst : Bool
  /-- `start`. -/
  start : Bool
  /-- `ver_in`. -/
  verIn : BitVec 6
  /-- `buf_raddr`, the cell the host's read port looks at: `OLEN_W` bits. -/
  bufRaddr : BitVec (olenW p)
deriving DecidableEq, Repr

/-- A stream the host presents, with the offset of its first mode indicator (70_reset_and_hazards rule R112). -/
structure Cursor where
  /-- `IN`; `L` is its length. -/
  bits : Bits
  /-- `OFF0`. -/
  off : Nat
deriving DecidableEq, Repr

/-- What the host does after one clock edge, for the next one: the levels it drives and, if it presents one, a
stream (00_scope rule R11; log 3). -/
structure HostMove (p : Params) where
  /-- The levels it drives. -/
  ports : Ports p
  /-- The stream it presents, if any. -/
  presents : Option Cursor
deriving DecidableEq, Repr

/-- The state. `params` is rule R1's configuration, which no step writes (log 1) and which fixes the widths of `OLEN` and
`buf_raddr`; `st` to `off` are the record of rule R13; `ports` and `script` are the host's free inputs of rule R11 as
plain data (log 3). -/
structure State where
  /-- The parameters of rule R1. -/
  params : Params
  /-- `ST` (rule R14). -/
  st : Fsm
  /-- `VER_R` (rule R15). -/
  verR : BitVec 6
  /-- `MODE_R` (rule R17). -/
  modeR : Code
  /-- `LENW_R` (rule R18). -/
  lenwR : BitVec 5
  /-- `CHW_R` (rule R19). -/
  chwR : BitVec 4
  /-- `CNT` (rule R20). -/
  cnt : BitVec 16
  /-- `OLEN` (rule R21), `OLEN_W` bits. -/
  olenR : BitVec (olenW params)
  /-- `BUF` (rule R22). -/
  buf : Memory
  /-- `STOP_R` (rule R23). -/
  stopR : StopReason
  /-- `FCAUSE_R` (rule R24). -/
  fcauseR : FaultCause
  /-- `IN` (rule R26); `L`, a natural number, is its length (log 9). -/
  stream : Bits
  /-- `OFF` (rule R26), a natural number as in the record of rule R13 (log 9). -/
  off : Nat
  /-- The input port levels of this clock (rule R28). -/
  ports : Ports params
  /-- The host's moves after this clock and the following ones. -/
  script : List (HostMove params)
deriving DecidableEq, Repr

/-- `OLEN` as an unsigned number (00_scope rule R4). -/
def State.olen (s : State) : Nat := s.olenR.toNat

/-- Why the model stops where no state follows. No step of the block raises one: the block's own three faults are next
states (60_exceptions rule R97). -/
inductive Fault where
  /-- Raised by `hostRead` (a read through `buf_raddr` of a cell at or beyond `OLEN`, or beyond the buffer): the cell
  has no value and the host gets no byte (20_memory rule R40, 70_reset_and_hazards rule R119). Safe. -/
  | hostReadNoValue (index : Nat)
deriving DecidableEq, Repr

/-- What the model has no meaning for. -/
inductive Refusal where
  /-- Raised by `exec` alone, for an instruction without a meaning yet; no arm raises it. Safe. -/
  | notModelled (mnemonic : String)
deriving DecidableEq, Repr

/-- The input levels `State.reset` carries. DESIGN CHOICE (log 7): the spec gives the levels to the host; all low. -/
def Ports.low {p : Params} : Ports p := { rst := false, start := false, verIn := 0, bufRaddr := 0 }

/-- Every register at its reset value and every cell without a value (rule R32), beside a cursor and host's inputs, which
reset does not set (70_reset_and_hazards rule R110). -/
def State.resetWith {p : Params} (stream : Bits) (off : Nat) (ports : Ports p) (script : List (HostMove p)) : State where
  params := p
  st := .idle
  verR := 0
  modeR := 0
  lenwR := 0
  chwR := 0
  cnt := 0
  olenR := 0
  buf := []
  stopR := .none
  fcauseR := .none
  stream := stream
  off := off
  ports := ports
  script := script

/-- The machine right after reset (rule R32). DESIGN CHOICE: the parameters (log 2), the cursor, which reset does not
set (log 6), and the host's inputs (log 7). -/
def State.reset : State := State.resetWith (p := Config.resetParams) [] 0 Ports.low []

end Sys2Proof.Machine
end

