-- ==== Sys2Proof/Machine/Ops.lean ====
section
/-! DEFINITION. The shared operations: the cursor (Avail, Take), the buffer (Append, the host's read), entering DONE
and FAULT, reset, and the host's move after a clock edge. -/

namespace Sys2Proof.Machine

/-- The outcome type of every meaning. -/
abbrev Result := Host.Outcome State Fault Refusal

/-- Applies a change of state to an outcome that is a next state. -/
def onNext (f : State → State) : Result → Result
  | .next s => .next (f s)
  | .fault r => .fault r
  | .refused r => .refused r

/-! ## The cursor -/

/-- `L - OFF`, the bits that remain: the port `cur_rem` (10_state rule R28). -/
def remaining (s : State) : Nat := s.stream.length - s.off

/-- `Avail(n)`: at least `n` bits remain (00_scope rule R7). No side effect. -/
def avail (n : Nat) (s : State) : Bool := decide (s.off + n ≤ s.stream.length)

/-- The value `Take(n)` returns: the bits at `OFF .. OFF+n-1`, the first the most significant (rule R8). -/
def takeValue (n : Nat) (s : State) : Nat := natOfBits ((s.stream.drop s.off).take n)

/-- What `Take(n)` does to the cursor: `OFF <- OFF + n` (rule R8). -/
def takeAdvance (n : Nat) (s : State) : State := { s with off := s.off + n }

/-- The instruction fetch of a MODE step: the decoder on the stream from `OFF` (41_segment_dispatch rule R71). -/
def fetch (s : State) : Except DecodeError (Instr × Bits) := decodeBits s.params.saCode (s.stream.drop s.off)

/-! ## The buffer -/

/-- The value of a cell; a cell not listed has none (10_state rule R22). -/
def Memory.read : Memory → Nat → Option Byte
  | [], _ => none
  | (a, b) :: m, i => if a = i then some b else Memory.read m i

/-- Writes a cell, keeping the list in rising order without repeats. -/
def Memory.write : Memory → Nat → Byte → Memory
  | [], i, v => [(i, v)]
  | (a, b) :: m, i, v =>
    if i < a then (i, v) :: (a, b) :: m
    else if i = a then (i, v) :: m
    else (a, b) :: Memory.write m i v

/-- The canonical form: indices strictly rising. An unlisted cell has no value, so no entry can equal it. -/
def Memory.wf (m : Memory) : Bool := decide (m.Pairwise (fun c d => c.1 < d.1))

/-- The buffer has no room: the precondition `OLEN < BUF_CAP` of Append fails (00_scope rule R9, log 10). -/
def bufFull (s : State) : Bool := decide (s.params.bufCap ≤ s.olen)

/-- `Append(b)` (rule R9); `OLEN` counts in its `OLEN_W` bits. -/
def append (b : Byte) (s : State) : State := { s with buf := s.buf.write s.olen b, olenR := s.olenR + 1 }

/-- A host read of the cell at the `OLEN_W`-bit address `i` through `buf_raddr` (20_memory rule R40, 10_state rule R28):
the cell's value when `i < OLEN` and the cell exists; otherwise a host-read fault and no byte. It changes nothing (rule
R39). -/
def hostRead (s : State) (i : BitVec (olenW s.params)) : Host.Outcome Byte Fault Refusal :=
  if i.toNat < s.olen ∧ i.toNat < s.params.bufCap then
    match s.buf.read i.toNat with
    | some b => .next b
    | none => .fault (.hostReadNoValue i.toNat)
  else .fault (.hostReadNoValue i.toNat)

/-! ## Stops, faults and reset -/

/-- A normal stop: `STOP_R <- r; ST <- DONE` (10_state rule R23, 60_exceptions rule R96). -/
def stopWith (r : StopReason) (s : State) : State := { s with stopR := r, st := .done }

/-- `raise Fault(cause)` on the state at the start of the step: `FCAUSE_R <- cause; ST <- FAULT`, nothing else (00_scope
rule R10, 60_exceptions rule R97). There is no handler and no saved register; the way out is `resetBlock` (rule R100). -/
def raiseFault (c : FaultCause) (s : State) : State := { s with fcauseR := c, st := .fault }

/-- Reset at a clock edge with `rst = 1` (70_reset_and_hazards rules R109, R110): every register at its reset value
and every cell without a value; the cursor, the parameters and the host's inputs stay. It is the only way out of
DONE and FAULT. -/
def resetBlock (s : State) : State := State.resetWith s.stream s.off s.ports s.script

/-! ## The host -/

/-- A stream the host may present: `OFF0 <= L <= L_MAX` (70_reset_and_hazards rule R112). -/
def Cursor.legal (p : Params) (c : Cursor) : Bool := decide (c.off ≤ c.bits.length ∧ c.bits.length ≤ p.lMax)

/-- The cursor after the host presents `c`, if it presents one. It has such a move only after a reset and before the next
start (20_memory rule R45), that is in IDLE, and only for a legal stream; otherwise, in DONE and FAULT too, the cursor stays (log 5). -/
def acceptCursor (c : Option Cursor) (s : State) : Cursor :=
  match c with
  | some c => if s.st = .idle ∧ c.legal s.params = true then c else { bits := s.stream, off := s.off }
  | none => { bits := s.stream, off := s.off }

/-- The host presents a stream, or none. -/
def present (c : Option Cursor) (s : State) : State :=
  { s with stream := (acceptCursor c s).bits, off := (acceptCursor c s).off }

/-- The levels of the next clock; with no further move they stay (log 4). -/
def nextPorts (s : State) : Ports s.params :=
  match s.script with
  | [] => s.ports
  | m :: _ => m.ports

/-- The stream the host presents after this clock, if any. -/
def presented (s : State) : Option Cursor :=
  match s.script with
  | [] => none
  | m :: _ => m.presents

/-- The host's move after a clock edge: it drives the next levels and may present a stream. -/
def hostClock (s : State) : State :=
  present (presented s) { s with ports := nextPorts s, script := s.script.tail }

end Sys2Proof.Machine
end

