-- ==== Sys2Proof/Machine/Rom.lean ====
section
/-! DEFINITION. The field-width ROM and its functions (40_field_width_rom rules R59 to R67). They have no state, no
side effect and no failure (rule R67). -/

namespace Sys2Proof.Machine

/-- `tier(v)` (rule R59). -/
def tier (v : BitVec 6) : Tier :=
  if 1 ≤ v.toNat ∧ v.toNat ≤ 9 then .small
  else if 10 ≤ v.toNat ∧ v.toNat ≤ 26 then .medium
  else if 27 ≤ v.toNat ∧ v.toNat ≤ 40 then .large
  else .none

/-- The 2-bit encoding of a tier (10_state rule R16). -/
def tierCode : Tier → BitVec 2
  | .none => 0
  | .small => 1
  | .medium => 2
  | .large => 3

/-- The tier of a 2-bit code (10_state rule R16). -/
def tierOfCode (t : BitVec 2) : Tier :=
  if t = 1 then .small else if t = 2 then .medium else if t = 3 then .large else .none

/-- `supported(m)`: exactly SA, BYTE and END (rule R61). -/
def supported : Mode → Bool
  | .sa | .byte | .endMsg => true
  | .num | .alnum | .fnc1_1 | .eci | .kanji | .fnc1_2 => false

/-- `lengthFieldBits(m, t)` (rule R62). -/
def lengthFieldBits : Mode → Tier → Option Nat
  | .num, .small => some 10
  | .num, .medium => some 12
  | .num, .large => some 14
  | .alnum, .small => some 9
  | .alnum, .medium => some 11
  | .alnum, .large => some 13
  | .byte, .small => some 8
  | .byte, .medium => some 16
  | .byte, .large => some 16
  | .kanji, .small => some 8
  | .kanji, .medium => some 10
  | .kanji, .large => some 12
  | _, _ => none

/-- `perCharacterBits(m)` (rule R63); it does not depend on the tier. -/
def perCharacterBits : Mode → Option Nat
  | .num => some 10
  | .alnum => some 11
  | .byte => some 8
  | .kanji => some 13
  | .sa | .eci | .fnc1_1 | .fnc1_2 | .endMsg => none

/-- The 11-bit word `LV, LW, CV, CW` of two widths that may be absent (rule R65). -/
def romWordOf (lw cw : Option Nat) : BitVec 11 :=
  BitVec.ofBool lw.isSome ++ BitVec.ofNat 5 (lw.getD 0) ++ BitVec.ofBool cw.isSome ++ BitVec.ofNat 4 (cw.getD 0)

/-- `ROM[a]`, `a = {c[3:0], t[1:0]}` (rule R65): 0 for a code with no mode. -/
def rom (sa : SaCode) (a : BitVec 6) : BitVec 11 :=
  match modeFromCode sa (a.extractLsb' 2 4) with
  | some m => romWordOf (lengthFieldBits m (tierOfCode (a.extractLsb' 0 2))) (perCharacterBits m)
  | none => 0

/-- Field LV of a ROM word, bit 10 (rule R65). -/
def romLV (w : BitVec 11) : Bool := w.getLsbD 10

/-- Field LW of a ROM word, bits 9 to 5 (rule R65). -/
def romLW (w : BitVec 11) : BitVec 5 := w.extractLsb' 5 5

/-- Field CV of a ROM word, bit 4 (rule R65). -/
def romCV (w : BitVec 11) : Bool := w.getLsbD 4

/-- Field CW of a ROM word, bits 3 to 0 (rule R65). -/
def romCW (w : BitVec 11) : BitVec 4 := w.extractLsb' 0 4

end Sys2Proof.Machine
end

