-- ==== Sys2Proof/Machine/Operands.lean ====
section
/-! DEFINITION. What the steps read: the indicator `m` of an instruction, the ROM word of a byte indicator, and the
COUNT and D[k] fields (30_encoding rules R48 to R51). -/

namespace Sys2Proof.Machine

/-- The part of a MODE FETCH that every arm shares: the Take(4) of the indicator and `MODE_R <- m`
(41_segment_dispatch rule R71). `m` is the instruction's own code, which is the four bits taken when `fetch` gave
the instruction (log 15). -/
def takeIndicator (i : Instr) (s : State) : State :=
  { takeAdvance 4 s with modeR := encode s.params.saCode i }

/-- The ROM word of an indicator at the latched version: `ROM[{m, tier(VER_R)}]` (41_segment_dispatch rule R76). -/
def romOperand (m : Code) (s : State) : BitVec 11 := rom s.params.saCode (m ++ tierCode (tier s.verR))

/-- `LENW_R` as a number of bits. -/
def lenWidth (s : State) : Nat := s.lenwR.toNat

/-- `CHW_R` as a number of bits. -/
def charWidth (s : State) : Nat := s.chwR.toNat

/-- The COUNT field, an unsigned `LENW_R`-bit value (42_byte_segment rule R88). -/
def countField (s : State) : Nat := takeValue (lenWidth s) s

/-- The byte a character field gives: `v[7:0]` of the `CHW_R` bits taken (42_byte_segment rule R91). -/
def charField (s : State) : Byte := BitVec.ofNat 8 (takeValue (charWidth s) s)

end Sys2Proof.Machine
end

