-- ==== Sys2Proof/Machine/Flags.lean ====
section
/-! DEFINITION. STATUS and the output ports (10_state rules R23 to R25, R29): views of the state, no storage. -/

namespace Sys2Proof.Machine

/-- BUSY: `ST` is MODE, LEN or CHAR (rules R14, R25). -/
def busyFlag (s : State) : Bool := s.st = .mode ∨ s.st = .len ∨ s.st = .char

/-- DONE (rule R25). -/
def doneFlag (s : State) : Bool := s.st = .done

/-- FAULT (rule R25). -/
def faultFlag (s : State) : Bool := s.st = .fault

/-- The encoding of `ST` (rule R14). -/
def stCode : Fsm → Fin 6
  | .idle => 0
  | .mode => 1
  | .len => 2
  | .char => 3
  | .done => 4
  | .fault => 5

/-- The encoding of `STOP_R` (rule R23). -/
def stopCode : StopReason → BitVec 3
  | .none => 0
  | .noBits => 1
  | .endMsg => 2
  | .unsupported => 3
  | .undefined => 4
  | .badVersion => 5

/-- The encoding of `FCAUSE_R` (rule R24). -/
def fcauseCode : FaultCause → BitVec 2
  | .none => 0
  | .underrunLen => 1
  | .underrunChar => 2
  | .overflow => 3

/-- `STATUS` (rule R25): MODE 11:8, FCAUSE 7:6, STOP 5:3, FAULT 2, DONE 1, BUSY 0. -/
def status (s : State) : BitVec 12 :=
  s.modeR ++ fcauseCode s.fcauseR ++ stopCode s.stopR ++
    BitVec.ofBool (faultFlag s) ++ BitVec.ofBool (doneFlag s) ++ BitVec.ofBool (busyFlag s)

/-- The port `olen` (rule R29). -/
def olenPort (s : State) : BitVec (olenW s.params) := s.olenR

/-- The port `cur_rem` (rule R28). -/
def curRemPort (s : State) : BitVec (offW s.params) := BitVec.ofNat _ (remaining s)

/-- The width of the Take of this clock, if it performs one: `cur_n` while `cur_take = 1` (rules R29, R30). The level
of `cur_n` in a clock with no Take is not stated, so none is given (log 14). No Take in a reset clock (rule R109). -/
def curN (s : State) : Option Nat :=
  if s.ports.rst then none
  else match s.st with
    | .mode => if avail 4 s then some 4 else none
    | .len => if avail (lenWidth s) s then some (lenWidth s) else none
    | .char => if avail (charWidth s) s && !bufFull s then some (charWidth s) else none
    | .idle | .done | .fault => none

/-- The port `cur_take` (rule R29). -/
def curTake (s : State) : Bool := (curN s).isSome

/-- The port `cur_data`, valid while `cur_take = 1`: `zext_16(Take(cur_n))` (rule R28). -/
def curData (s : State) : Option (BitVec 16) := (curN s).map (fun n => BitVec.ofNat 16 (takeValue n s))

/-- The port `buf_rdata`: the cell at `buf_raddr` (rules R29, R40). -/
def bufRdata (s : State) : Host.Outcome Byte Fault Refusal := hostRead s s.ports.bufRaddr

end Sys2Proof.Machine
end

