-- ==== Sys2Proof/Machine/ByteSegment.lean ====
section
/-! DEFINITION. The steps of states LEN and CHAR, which expand a byte segment (42_byte_segment rules R87 to R91). -/

namespace Sys2Proof.Machine

/-- LEN READ (rule R88). -/
def lenRead (s : State) : State :=
  { takeAdvance (lenWidth s) s with
    cnt := BitVec.ofNat 16 (countField s), st := if countField s = 0 then .mode else .char }

/-- A step of state LEN: LEN UNDERRUN (rule R87) or LEN READ (rule R88). -/
def lenStep (s : State) : State :=
  if avail (lenWidth s) s then lenRead s else raiseFault .underrunLen s

/-- CHAR APPEND (rule R91). -/
def charAppend (s : State) : State :=
  { append (charField s) (takeAdvance (charWidth s) s) with
    cnt := s.cnt - 1, st := if s.cnt - 1 = 0 then .mode else .char }

/-- A step of state CHAR, in the order of 60_exceptions rule R99: CHAR UNDERRUN (rule R89), CHAR OVERFLOW (rule R90),
CHAR APPEND (rule R91). -/
def charStep (s : State) : State :=
  if avail (charWidth s) s then
    if bufFull s then raiseFault .overflow s else charAppend s
  else raiseFault .underrunChar s

end Sys2Proof.Machine
end

