-- ==== Sys2Proof/Machine/Indicators.lean ====
section
/-! DEFINITION. The meanings of the mode indicators: one arm of MODE FETCH each (41_segment_dispatch rules R71 to R81).
Each consumes exactly 4 bits; none appends and none faults. A meaning speaks of every state; that it is reached only in
MODE with `Avail(4)` is the step's guard (log 16). -/

namespace Sys2Proof.Machine

/-- The arm of an indicator that ends the decode with reason `r`. -/
def stopOnIndicator (i : Instr) (r : StopReason) (s : State) : Result := .next (stopWith r (takeIndicator i s))

/-- The arm of an indicator that is skipped: the next step is in MODE (rule R75). -/
def skipIndicator (i : Instr) (s : State) : State := { takeIndicator i s with st := .mode }

/-- The arm of an indicator whose segment is read on: both widths are latched and the next step is in LEN (rule R76). -/
def latchWidths (i : Instr) (lw : BitVec 5) (cw : BitVec 4) (s : State) : State :=
  { takeIndicator i s with lenwR := lw, chwR := cw, st := .len }

/-- END (rule R72). -/
def execEndMsg (s : State) : Result := stopOnIndicator .endMsg .endMsg s

/-- NUM (rule R73): recognised, not expanded. -/
def execNum (s : State) : Result := stopOnIndicator .num .unsupported s

/-- ALNUM (rule R74). -/
def execAlnum (s : State) : Result := stopOnIndicator .alnum .unsupported s

/-- SA (rule R75): a no-op, whatever the version; the next step reads the next indicator. -/
def execSa (s : State) : Result := .next (skipIndicator .sa s)

/-- BYTE (rule R76): both widths present, latch them and go to LEN; otherwise, at tier NONE, stop BAD_VERSION. -/
def execByte (s : State) : Result :=
  let w := romOperand (encode s.params.saCode .byte) s
  if romLV w && romCV w then .next (latchWidths .byte (romLW w) (romCW w) s)
  else stopOnIndicator .byte .badVersion s

/-- FNC1_1 (rule R77). -/
def execFnc1First (s : State) : Result := stopOnIndicator .fnc1_1 .unsupported s

/-- ECI (rule R78). -/
def execEci (s : State) : Result := stopOnIndicator .eci .unsupported s

/-- KANJI (rule R79). -/
def execKanji (s : State) : Result := stopOnIndicator .kanji .unsupported s

/-- FNC1_2 (rule R80). -/
def execFnc1Second (s : State) : Result := stopOnIndicator .fnc1_2 .unsupported s

/-- UNDEF(c) (rule R81): a normal stop, no trap (30_encoding rule R56). -/
def execUndef (c : Code) (s : State) : Result := stopOnIndicator (.undef c) .undefined s

end Sys2Proof.Machine
end

