-- ==== Sys2Proof/Machine/Dispatch.lean ====
section
/-! DEFINITION. The dispatch of MODE FETCH (41_segment_dispatch rule R71): one arm per instruction. -/

namespace Sys2Proof.Machine

def exec (i : Instr) (s : State) : Host.Outcome State Fault Refusal :=
  match i with
  | .endMsg => Sys2Proof.Machine.execEndMsg s
  | .num => Sys2Proof.Machine.execNum s
  | .alnum => Sys2Proof.Machine.execAlnum s
  | .sa => Sys2Proof.Machine.execSa s
  | .byte => Sys2Proof.Machine.execByte s
  | .fnc1_1 => Sys2Proof.Machine.execFnc1First s
  | .eci => Sys2Proof.Machine.execEci s
  | .kanji => Sys2Proof.Machine.execKanji s
  | .fnc1_2 => Sys2Proof.Machine.execFnc1Second s
  | .undef c => Sys2Proof.Machine.execUndef c s

end Sys2Proof.Machine
end

