-- ==== Sys2Proof/Machine/LifeCycle.lean ====
section
/-! DEFINITION. The steps that are no indicator and no segment field: START, IDLE HOLD, MODE NO BITS, DONE HOLD and
FAULT HOLD (41_segment_dispatch rules R68 to R70, R82, R83). -/

namespace Sys2Proof.Machine

/-- START (rule R68): the version is latched unchecked; no Take. -/
def startDecode (s : State) : State :=
  { s with verR := s.ports.verIn, olenR := 0, cnt := 0, stopR := .none, fcauseR := .none, st := .mode }

/-- A step of state IDLE: START (rule R68) or IDLE HOLD (rule R69). -/
def idleStep (s : State) : State := if s.ports.start then startDecode s else s

/-- MODE, NO BITS (rule R70): fewer than 4 bits remain; nothing is consumed, `MODE_R` stays. -/
def noBits (s : State) : State := stopWith .noBits s

/-- DONE HOLD (rule R82): nothing changes, `start` is ignored. -/
def doneHold (s : State) : State := s

/-- FAULT HOLD (rule R83): nothing changes, `start` is ignored. -/
def faultHold (s : State) : State := s

end Sys2Proof.Machine
end

