-- ==== Sys2Proof/Machine/Clock.lean ====
section
/-! DEFINITION. One transition of the block, selected by `ST` and the inputs (00_scope rule R11), and how a word of the
opcode table is put where the next step fetches. -/

namespace Sys2Proof.Machine

/-- A step of state MODE: MODE, NO BITS (41_segment_dispatch rule R70) or MODE FETCH (rule R71). -/
def modeStep (s : State) : Result :=
  match fetch s with
  | .ok (i, _) => exec i s
  | .error .fewerThanFourBits => .next (noBits s)

/-- The transition of a clock with `rst = 0` (rule R11). -/
def blockStep (s : State) : Result :=
  match s.st with
  | .idle => .next (idleStep s)
  | .mode => modeStep s
  | .len => .next (lenStep s)
  | .char => .next (charStep s)
  | .done => .next (doneHold s)
  | .fault => .next (faultHold s)

/-- One clock edge: reset has priority over every rule (70_reset_and_hazards rule R109); after the edge the host moves. -/
def clockEdge (s : State) : Result :=
  onNext hostClock (if s.ports.rst then .next (resetBlock s) else blockStep s)

/-- Overwrites the stream from position `off` with `bs`, extending it where it is shorter. -/
def overwrite (stream : Bits) (off : Nat) (bs : Bits) : Bits :=
  stream.take off ++ List.replicate (off - stream.length) false ++ bs ++ stream.drop (off + bs.length)

/-- The state with a word of the opcode table at `OFF` and the block about to fetch it: the word in the stream, `ST` in
MODE and `rst` low (log 8). -/
def placeTableWord (s : State) (nbits w : Nat) : State :=
  { s with
    stream := overwrite s.stream s.off (bitsOfTableWord nbits w)
    st := .mode
    ports := { s.ports with rst := false } }

end Sys2Proof.Machine
end

