-- ==== Sys2Proof/Machine/Step.lean ====
section
/-! DEFINITION. The step of the machine and the placement of an instruction where it fetches next. -/

namespace Sys2Proof.Machine

/-- One step: one clock edge (00_scope rule R11). -/
def step (s : State) : Host.Outcome State Fault Refusal := clockEdge s

/-- The word of an opcode-table row placed where the next step fetches (log 8). -/
def State.withFetchWord (s : State) (nbits w : Nat) : State := placeTableWord s nbits w

end Sys2Proof.Machine
end

