-- ==== Sys2Proof/Machine/Segment.lean ====
section
/-! DEFINITION. Whole segments as the encoding chapter lays them out (30_encoding rules R48 to R51, R57, R58): the
notation, its bits, and the reader of one segment. The machine reads a segment in several steps; claims compare the two. -/

namespace Sys2Proof.Machine

/-- One segment of a payload (rule R48). -/
inductive Segment where
  /-- Format `F_BYTE` (rule R49), the count being the number of data bytes. -/
  | bytes (data : List Byte)
  /-- Format `F_IND` (rule R51): an indicator alone. -/
  | indicator (i : Instr)
deriving DecidableEq, Repr

/-- Why bits are no whole segment: no indicator (rule R70), an incomplete COUNT (rule R87), an incomplete D[k] (rule R89). -/
inductive SegmentError where
  | noIndicator
  | truncatedCount
  | truncatedData
deriving DecidableEq, Repr

/-- `BYTE(n)[b0, b1, ...]` for a COUNT field of `w` bits (rule R58); `n` need not be the number of bytes that follow. -/
def byteSegmentBits (sa : SaCode) (w n : Nat) (data : List Byte) : Bits :=
  encodeBits sa .byte ++ bitsOfNat w n ++ bitsOfBytes data

/-- The bits of a segment for a COUNT field of `w` bits (rules R49, R51, R58). -/
def encodeSegment (sa : SaCode) (w : Nat) : Segment → Bits
  | .bytes data => byteSegmentBits sa w data.length data
  | .indicator i => encodeBits sa i

/-- The segments that have an encoding: the count fits in `w` bits; a lone indicator is any but BYTE (rules R49, R51). -/
def segmentWellFormed (w : Nat) : Segment → Bool
  | .bytes data => decide (data.length < 2 ^ w)
  | .indicator i => i.wellFormed && decide (i ≠ .byte)

/-- Reads `n` fields of 8 bits (rule R49). -/
def readBytes : Nat → Bits → Option (List Byte × Bits)
  | 0, bs => some ([], bs)
  | n + 1, bs =>
    if bs.length < 8 then none
    else (readBytes n (bs.drop 8)).map (fun r => (BitVec.ofNat 8 (natOfBits (bs.take 8)) :: r.1, r.2))

/-- Reads one segment for a COUNT field of `w` bits and returns it with the rest of the stream (rules R49, R51, R57). -/
def readSegment (sa : SaCode) (w : Nat) (bs : Bits) : Except SegmentError (Segment × Bits) :=
  match decodeBits sa bs with
  | .error _ => .error .noIndicator
  | .ok (.byte, rest) =>
    if rest.length < w then .error .truncatedCount
    else match readBytes (natOfBits (rest.take w)) (rest.drop w) with
      | some (data, rest') => .ok (.bytes data, rest')
      | none => .error .truncatedData
  | .ok (i, rest) => .ok (.indicator i, rest)

end Sys2Proof.Machine
end

