-- ==== Sys2Proof/Safety.lean ====
section
/-! DEFINITION. The terms claims use: runs, the end and the result of a decode, hosts that do not reset, the invariant,
and the source's recursive decode. -/

namespace Sys2Proof.Machine

/-- `n` steps. -/
def run : Nat → State → Result
  | 0, s => .next s
  | n + 1, s =>
    match step s with
    | .next t => run n t
    | .fault r => .fault r
    | .refused r => .refused r

/-- A decode has ended when `ST` is DONE or FAULT (41_segment_dispatch rule R85). -/
def ended (s : State) : Bool := s.st = .done ∨ s.st = .fault

/-- The values of cells `0 .. n-1`, if every one has a value. -/
def cellsBelow (m : Memory) : Nat → Option (List Byte)
  | 0 => some []
  | n + 1 =>
    match cellsBelow m n, m.read n with
    | some bs, some b => some (bs ++ [b])
    | _, _ => none

/-- The result of a decode: `BUF[0], ..., BUF[OLEN-1]`, defined in DONE only (rule R85). -/
def decodeResult (s : State) : Option (List Byte) := if s.st = .done then cellsBelow s.buf s.olen else none

/-- The host drives `rst = 0` in this clock and in every later one. -/
def noReset (s : State) : Bool := !s.ports.rst && s.script.all (fun m => !m.ports.rst)

/-- The state without the host's inputs: the record of 10_state rule R13 and the parameters. -/
def blockPart (s : State) : State := { s with ports := Ports.low, script := [] }

/-- The widths latched for the byte segment being read are those of the version (10_state rules R18, R19), and `MODE_R`
is the byte indicator (60_exceptions rule R95). -/
structure SegmentOpen (s : State) : Prop where
  lenW : lengthFieldBits .byte (tier s.verR) = some (lenWidth s)
  charW : perCharacterBits .byte = some (charWidth s)
  mode : s.modeR = 0b0100

/-- The indicator `bits` is instruction `i`, and running it takes `s` to `t`: `exec` says so of `s`, and if `s` is in MODE
with `rst = 0` and `bits` next in the stream, the step goes to `t` with the host's move after it. -/
def IndicatorRuns (i : Instr) (bits : Bits) (s t : State) : Prop :=
  exec i s = .next t ∧
    ∀ rest, s.st = .mode → s.ports.rst = false → s.stream.drop s.off = bits ++ rest → step s = .next (hostClock t)

/-- What holds in every state a run from reset reaches. -/
structure Inv (s : State) : Prop where
  /-- The written cells are exactly `0 .. OLEN-1`, in order (10_state rule R22). -/
  cells : s.buf.map Prod.fst = List.range s.olen
  /-- `OLEN <= BUF_CAP` (rule R21). -/
  room : s.olen ≤ s.params.bufCap
  /-- `OFF <= L` (rule R27). -/
  offset : s.off ≤ s.stream.length
  /-- `L <= L_MAX` (rule R26). -/
  length : s.stream.length ≤ s.params.lMax
  /-- Each Append has consumed 8 bits (41_segment_dispatch rule R84). -/
  eightBitsEach : 8 * s.olen ≤ s.off
  /-- The possible values of `LENW_R` and `CHW_R` (rules R18, R19). -/
  widths : (s.lenwR = 0 ∧ s.chwR = 0) ∨ ((s.lenwR = 8 ∨ s.lenwR = 16) ∧ s.chwR = 8)
  /-- IDLE is reached only through reset, so the registers hold their reset values (rule R32). -/
  idle : s.st = .idle → s.verR = 0 ∧ s.modeR = 0 ∧ s.lenwR = 0 ∧ s.chwR = 0 ∧ s.cnt = 0 ∧ s.olen = 0
  /-- `STOP_R` is nonzero exactly in DONE (rule R23). -/
  stop : s.stopR ≠ .none ↔ s.st = .done
  /-- `FCAUSE_R` is nonzero exactly in FAULT (rule R24). -/
  cause : s.fcauseR ≠ .none ↔ s.st = .fault
  /-- LEN is entered with the widths latched (41_segment_dispatch rule R76). -/
  len : s.st = .len → SegmentOpen s
  /-- CHAR is entered with the widths latched and `CNT >= 1` (42_byte_segment rule R91). -/
  char : s.st = .char → SegmentOpen s ∧ s.cnt ≠ 0

/-- A state ready to decode: the launch premises of 70_reset_and_hazards rule R112 (the buffer premise apart), with
`start = 1` in this clock and a host that never resets. -/
structure Launch (s : State) : Prop where
  inv : Inv s
  idle : s.st = .idle
  start : s.ports.start = true
  noReset : noReset s = true

/-- The source's decode, as it recurses segment by segment (41_segment_dispatch rules R71, R84): the bytes accumulated
and the number of bits left unread; `none` where the cursor starves. `fuel` bounds the number of segments. -/
def sourceDecode (sa : SaCode) (t : Tier) : Nat → Bits → List Byte → Option (List Byte × Nat)
  | 0, _, _ => none
  | fuel + 1, bs, out =>
    match decodeBits sa bs with
    | .error _ => some (out, bs.length)
    | .ok (.sa, rest) => sourceDecode sa t fuel rest out
    | .ok (.byte, rest) =>
      match lengthFieldBits .byte t with
      | none => some (out, rest.length)
      | some w =>
        match readSegment sa w bs with
        | .ok (.bytes data, rest') => sourceDecode sa t fuel rest' (out ++ data)
        | _ => none
    | .ok (_, rest) => some (out, rest.length)

end Sys2Proof.Machine
end

