-- ==== Sys2Proof/Certificates/Slice0/Obligations.lean ====
section
/-! DEFINITION. What is claimed of the model. Each statement's docstring names the rules of spec/ it formalises.
`hostClock` after a step is the model's form of the host's free inputs (00_scope rule R11; logs 3 to 5): it sets the next
port levels and, in IDLE only, a presented stream, and it writes no register, so the rule's effect is its argument. That a
stream presented outside IDLE is not taken is log 5's DESIGN CHOICE. -/

open Sys2Proof Sys2Proof.Machine

/-! ## Encoding (30_encoding) -/

/-- Words of the opcode table and what they decode to (rules R54, R55; opcode_table.json). The codes of ALNUM, SA, FNC1_1,
ECI, KANJI and FNC1_2 are "[from general knowledge, not in source]" (rule R54, log 17). -/
def Obligations.TableWordsDecode : Prop :=
  decodeTableWord 4 0x0 = some .endMsg ∧ decodeTableWord 4 0x1 = some .num ∧ decodeTableWord 4 0x2 = some .alnum ∧
  decodeTableWord 4 0x3 = some .sa ∧ decodeTableWord 4 0x4 = some .byte ∧ decodeTableWord 4 0x5 = some .fnc1_1 ∧
  decodeTableWord 4 0x6 = some (.undef 0x6) ∧ decodeTableWord 4 0x7 = some .eci ∧
  decodeTableWord 4 0x8 = some .kanji ∧ decodeTableWord 4 0x9 = some .fnc1_2 ∧
  decodeTableWord 4 0xA = some (.undef 0xA) ∧ decodeTableWord 4 0xF = some (.undef 0xF)

/-- The map of rule R60 for every value of `SA_CODE`: SA sits there, the mode displaced takes `0011`, the other codes
keep the row of the default map (rule R55; codes from general knowledge, log 17). -/
def Obligations.SaCodeMovesOneRow : Prop :=
  ∀ (sa : SaCode) (c : Code),
    decodeCode sa c =
      if c = saBits sa then .sa else if c = 0b0011 then decodeCode .c3 (saBits sa) else decodeCode .c3 c

/-- Decoding an indicator answers `i` exactly on the bits that encode a well-formed `i`, and drops no bit of the rest
(rules R48, R51, R55, R56). -/
def Obligations.IndicatorDecodesExactlyItsBits : Prop :=
  ∀ (sa : SaCode) (bs rest : Bits) (i : Instr),
    decodeBits sa bs = .ok (i, rest) ↔ i.wellFormed = true ∧ bs = encodeBits sa i ++ rest

/-- Reading a segment from its encoding gives it back, with every byte and every count the field admits, and leaves the
rest of the stream (rules R49, R50, R51, R58). -/
def Obligations.SegmentReadInvertsEncode : Prop :=
  ∀ (sa : SaCode) (w : Nat) (g : Segment) (rest : Bits),
    segmentWellFormed w g = true → readSegment sa w (encodeSegment sa w g ++ rest) = .ok (g, rest)

/-- A byte segment occupies `4 + W + 8*COUNT` bits with `W` 8 or 16 by tier, a lone indicator 4 (rule R57). -/
def Obligations.SegmentOccupiesStatedBits : Prop :=
  ∀ (sa : SaCode) (t : Tier) (w : Nat), lengthFieldBits .byte t = some w →
    (w = 8 ∨ w = 16) ∧ (w = 8 ↔ t = .small) ∧
    (∀ data : List Byte, (encodeSegment sa w (.bytes data)).length = 4 + w + 8 * data.length) ∧
    (∀ i : Instr, (encodeSegment sa w (.indicator i)).length = 4)

/-- Byte packing of a stream: position `p` is bit `7 - p mod 8` of byte `p div 8`; unused low bits of the last byte are
zero and no part of the stream, which its length ends, so that decoding from bytes is decoding the stream (rule R36). -/
def Obligations.StreamPacksMostSignificantFirst : Prop :=
  (∀ (bs : List Byte) (p : Nat), p < 8 * bs.length →
    (bitsOfBytes bs)[p]? = (bs[p / 8]?).map (fun b => b.getLsbD (7 - p % 8))) ∧
  (∀ bs : Bits, bitsOfBytes (bytesOfBits ((bs.length + 7) / 8) bs) =
    bs ++ List.replicate (8 * ((bs.length + 7) / 8) - bs.length) false) ∧
  (∀ bs : Bits, streamOfBytes bs.length (bytesOfBits ((bs.length + 7) / 8) bs) = bs) ∧
  (∀ (sa : SaCode) (bs : Bits), decodeBytes sa bs.length (bytesOfBits ((bs.length + 7) / 8) bs) = decodeBits sa bs)

/-! ## The field-width ROM (40_field_width_rom) -/

/-- Each ROM word encodes the two widths of its code and tier; an undefined code's word is 0 (rule R65). -/
def Obligations.RomHoldsTheWidths : Prop :=
  ∀ (sa : SaCode) (c : Code) (t : Tier),
    match modeFromCode sa c with
    | none => rom sa (c ++ tierCode t) = 0
    | some m =>
      romLV (rom sa (c ++ tierCode t)) = (lengthFieldBits m t).isSome ∧
      (romLW (rom sa (c ++ tierCode t))).toNat = (lengthFieldBits m t).getD 0 ∧
      romCV (rom sa (c ++ tierCode t)) = (perCharacterBits m).isSome ∧
      (romCW (rom sa (c ++ tierCode t))).toNat = (perCharacterBits m).getD 0

/-- The two widths are both present or both absent at a valid tier; at tier NONE there is no length width (rule R64). -/
def Obligations.WidthsPresentTogether : Prop :=
  ∀ m : Mode,
    (∀ t : Tier, t ≠ .none → (lengthFieldBits m t).isSome = (perCharacterBits m).isSome) ∧
    lengthFieldBits m .none = none ∧
    ((perCharacterBits m).isSome = true ↔ m = .num ∨ m = .alnum ∨ m = .byte ∨ m = .kanji)

/-- The width tables of rules R62 and R63, by mode and symbol version. -/
def Obligations.WidthsByVersion : Prop :=
  ∀ (m : Mode) (v : BitVec 6),
    (1 ≤ v.toNat ∧ v.toNat ≤ 9 → lengthFieldBits m (tier v) =
      match m with | .num => some 10 | .alnum => some 9 | .byte => some 8 | .kanji => some 8 | _ => none) ∧
    (10 ≤ v.toNat ∧ v.toNat ≤ 26 → lengthFieldBits m (tier v) =
      match m with | .num => some 12 | .alnum => some 11 | .byte => some 16 | .kanji => some 10 | _ => none) ∧
    (27 ≤ v.toNat ∧ v.toNat ≤ 40 → lengthFieldBits m (tier v) =
      match m with | .num => some 14 | .alnum => some 13 | .byte => some 16 | .kanji => some 12 | _ => none) ∧
    (v.toNat = 0 ∨ 41 ≤ v.toNat → lengthFieldBits m (tier v) = none) ∧
    perCharacterBits m =
      match m with | .num => some 10 | .alnum => some 11 | .byte => some 8 | .kanji => some 13 | _ => none

/-- The supported set is exactly SA, BYTE and END (rule R61). -/
def Obligations.SupportedSetIsExact : Prop :=
  ∀ m : Mode, supported m = true ↔ m = .sa ∨ m = .byte ∨ m = .endMsg

/-! ## The mode indicators (41_segment_dispatch) -/

/-- END (rule R72). -/
def Obligations.EndStopsTheDecode : Prop :=
  ∀ s : State, IndicatorRuns .endMsg [false, false, false, false] s
    { s with off := s.off + 4, modeR := 0b0000, stopR := .endMsg, st := .done }

/-- NUM (rule R73). -/
def Obligations.NumStopsUnsupported : Prop :=
  ∀ s : State, IndicatorRuns .num [false, false, false, true] s
    { s with off := s.off + 4, modeR := 0b0001, stopR := .unsupported, st := .done }

/-- ALNUM, FNC1_1, ECI, KANJI, FNC1_2 (rules R74, R77 to R80): each stops UNSUPPORTED after its 4 bits. The codes are the
spec's "[from general knowledge, not in source]" (rule R54, log 17); the mode `SA_CODE` displaces has code `0011` (rule R55). -/
def Obligations.OtherUnsupportedModesStop : Prop :=
  ∀ s : State,
    (let m : Code := if s.params.saCode = .c2 then 0b0011 else 0b0010
     IndicatorRuns .alnum (bitsOfNat 4 m.toNat) s
      { s with off := s.off + 4, modeR := m, stopR := .unsupported, st := .done }) ∧
    (let m : Code := if s.params.saCode = .c5 then 0b0011 else 0b0101
     IndicatorRuns .fnc1_1 (bitsOfNat 4 m.toNat) s
      { s with off := s.off + 4, modeR := m, stopR := .unsupported, st := .done }) ∧
    (let m : Code := if s.params.saCode = .c7 then 0b0011 else 0b0111
     IndicatorRuns .eci (bitsOfNat 4 m.toNat) s
      { s with off := s.off + 4, modeR := m, stopR := .unsupported, st := .done }) ∧
    (let m : Code := if s.params.saCode = .c8 then 0b0011 else 0b1000
     IndicatorRuns .kanji (bitsOfNat 4 m.toNat) s
      { s with off := s.off + 4, modeR := m, stopR := .unsupported, st := .done }) ∧
    (let m : Code := if s.params.saCode = .c9 then 0b0011 else 0b1001
     IndicatorRuns .fnc1_2 (bitsOfNat 4 m.toNat) s
      { s with off := s.off + 4, modeR := m, stopR := .unsupported, st := .done })

/-- SA (rule R75): skipped as a no-op whatever the version; its code is the parameter `SA_CODE` (log 17). -/
def Obligations.SaIsSkipped : Prop :=
  ∀ s : State, IndicatorRuns .sa (bitsOfNat 4 (saBits s.params.saCode).toNat) s
    { s with off := s.off + 4, modeR := saBits s.params.saCode, st := .mode }

/-- BYTE (rule R76): a version of 1 to 9 latches an 8-bit count width, 10 to 40 a 16-bit one, any other version stops
BAD_VERSION (tiers of rule R59, widths of rules R62, R63). -/
def Obligations.ByteSelectsWidthsOrStops : Prop :=
  ∀ s : State,
    (1 ≤ s.verR.toNat ∧ s.verR.toNat ≤ 9 → IndicatorRuns .byte [false, true, false, false] s
      { s with off := s.off + 4, modeR := 0b0100, lenwR := 8, chwR := 8, st := .len }) ∧
    (10 ≤ s.verR.toNat ∧ s.verR.toNat ≤ 40 → IndicatorRuns .byte [false, true, false, false] s
      { s with off := s.off + 4, modeR := 0b0100, lenwR := 16, chwR := 8, st := .len }) ∧
    (s.verR.toNat = 0 ∨ 41 ≤ s.verR.toNat → IndicatorRuns .byte [false, true, false, false] s
      { s with off := s.off + 4, modeR := 0b0100, stopR := .badVersion, st := .done })

/-- UNDEF (rule R81): the codes 6 and 10 to 15 stop UNDEFINED after their 4 bits. -/
def Obligations.UndefinedCodesStop : Prop :=
  ∀ s : State, ∀ c ∈ [(0b0110 : Code), 0b1010, 0b1011, 0b1100, 0b1101, 0b1110, 0b1111],
    IndicatorRuns (.undef c) (bitsOfNat 4 c.toNat) s
      { s with off := s.off + 4, modeR := c, stopR := .undefined, st := .done }

/-- The frame of all ten indicators: END, NUM, ALNUM, SA, BYTE, FNC1_1, ECI, KANJI, FNC1_2, UNDEF (rules R71 to R81). Each
moves OFF by 4 and writes MODE_R and ST; STOP_R changes only on a stop; LENW_R and CHW_R only by BYTE going to LEN; every
cell of the buffer, the host's inputs and everything else stay. -/
def Obligations.IndicatorFrame : Prop :=
  ∀ (i : Instr) (s t : State), exec i s = .next t →
    t = { s with off := s.off + 4, modeR := encode s.params.saCode i, st := t.st, stopR := t.stopR, lenwR := t.lenwR,
                 chwR := t.chwR } ∧
    (t.st = .done ∨ (i = .sa ∧ t.st = .mode) ∨ (i = .byte ∧ t.st = .len)) ∧
    (t.st ≠ .done → t.stopR = s.stopR) ∧
    (t.st ≠ .len → t.lenwR = s.lenwR ∧ t.chwR = s.chwR) ∧
    t.verR = s.verR ∧ t.cnt = s.cnt ∧ t.olen = s.olen ∧ t.fcauseR = s.fcauseR ∧ t.stream = s.stream ∧
    t.params = s.params ∧ ∀ a, t.buf.read a = s.buf.read a

/-- When the stream at OFF decodes to an instruction, the step in MODE is `exec` of it, then the host's move (rules R11,
R71). -/
def Obligations.StepRunsTheDecodedInstruction : Prop :=
  ∀ (s : State) (i : Instr) (rest : Bits), s.st = .mode → s.ports.rst = false →
    decodeBits s.params.saCode (s.stream.drop s.off) = .ok (i, rest) → step s = onNext hostClock (exec i s)

/-- MODE FETCH (rule R71), with the checks in the source's order over the model's code map (log 17): the 4 bits are consumed
and written to MODE_R, most significant first, before any check on the code. -/
def Obligations.ModeFetchTakesThenDispatches : Prop :=
  ∀ s : State, s.st = .mode → s.ports.rst = false → s.off + 4 ≤ s.stream.length →
    ∃ t, step s = .next t ∧ t.off = s.off + 4 ∧ (∀ k < 4, s.stream[s.off + k]? = some (t.modeR.getMsbD k)) ∧
      t.fcauseR = s.fcauseR ∧
      match modeFromCode s.params.saCode t.modeR with
      | none => t.st = .done ∧ t.stopR = .undefined
      | some m =>
        if supported m = false then t.st = .done ∧ t.stopR = .unsupported
        else if m = .endMsg then t.st = .done ∧ t.stopR = .endMsg
        else if m = .byte then
          if tier s.verR = .none then t.st = .done ∧ t.stopR = .badVersion
          else t.st = .len ∧ t.stopR = s.stopR ∧ lengthFieldBits .byte (tier s.verR) = some t.lenwR.toNat ∧
            perCharacterBits .byte = some t.chwR.toNat
        else m = .sa ∧ t.st = .mode ∧ t.stopR = s.stopR

/-- MODE, NO BITS (rule R70): with 0 to 3 bits left the decode stops normally and consumes nothing. -/
def Obligations.NoBitsStopsUnread : Prop :=
  ∀ s : State, s.st = .mode → s.ports.rst = false → s.stream.length < s.off + 4 →
    step s = .next (hostClock { s with stopR := .noBits, st := .done })

/-! ## Life cycle (41_segment_dispatch, 70_reset_and_hazards) -/

/-- START (rule R68): any version is latched, OFF and BUF stay, no Take. -/
def Obligations.StartLatchesTheVersion : Prop :=
  ∀ s : State, s.st = .idle → s.ports.rst = false → s.ports.start = true →
    step s = .next (hostClock { s with
      verR := s.ports.verIn, olenR := 0, cnt := 0, stopR := .none, fcauseR := .none, st := .mode }) ∧ curTake s = false

/-- IDLE HOLD (rule R69). -/
def Obligations.IdleWaitsForStart : Prop :=
  ∀ s : State, s.st = .idle → s.ports.rst = false → s.ports.start = false →
    step s = .next (hostClock s) ∧ curTake s = false

/-- DONE HOLD and FAULT HOLD (rules R82, R83): whatever `start` and `ver_in` are, nothing changes and no Take is issued. -/
def Obligations.TerminalStatesHold : Prop :=
  ∀ s : State, s.st = .done ∨ s.st = .fault → s.ports.rst = false →
    step s = .next (hostClock s) ∧ curTake s = false

/-- A decode that has ended stays as it is for as long as the host does not reset, whatever else it drives: ST, FCAUSE_R,
STOP_R, OLEN and BUF are final, and no step moves OFF (rules R43, R82, R83, R98, R100, R118). That the stream and OFF also
stay whatever the host presents in DONE or FAULT is log 5's DESIGN CHOICE, not a rule: R45 and R115 bind the host until done
or fault, and R120 speaks of a host that goes on using the cursor. -/
def Obligations.EndedDecodeIsFinal : Prop :=
  ∀ (n : Nat) (s : State), ended s = true → noReset s = true →
    ∃ t, run n s = .next t ∧ blockPart t = blockPart s

/-- Reset (rules R109, R110): in any state, whatever the other inputs, every register takes its reset value, no Take is
issued, and the cursor stays (the host's move after the edge may present another stream). -/
def Obligations.ResetSetsEveryRegister : Prop :=
  ∀ s : State, s.ports.rst = true →
    step s = .next (hostClock {
      params := s.params, st := .idle, verR := 0, modeR := 0, lenwR := 0, chwR := 0, cnt := 0, olenR := 0, buf := [],
      stopR := .none, fcauseR := .none, stream := s.stream, off := s.off, ports := s.ports, script := s.script }) ∧
    curTake s = false

/-- What reset leaves (rule R32): the registers, no cell with a value, STATUS 0x000 and the output ports; in the state
after reset and after a reset of any state, whose cursor stays. -/
def Obligations.ResetLeavesTheStatedValues : Prop :=
  ∀ s t : State, t = State.reset ∨ t = resetBlock s →
    t.st = .idle ∧ t.verR = 0 ∧ t.modeR = 0 ∧ t.lenwR = 0 ∧ t.chwR = 0 ∧ t.cnt = 0 ∧ t.olenR = 0 ∧
    (∀ i, t.buf.read i = none) ∧ t.stopR = .none ∧ t.fcauseR = .none ∧ status t = 0x000 ∧ curTake t = false ∧
    busyFlag t = false ∧ doneFlag t = false ∧ faultFlag t = false ∧ olenPort t = 0 ∧
    (t = resetBlock s → t.stream = s.stream ∧ t.off = s.off)

/-- After the start step, `start`, `ver_in` and `buf_raddr` have no effect: two machines alike but for what their hosts
drive, neither resetting, stay alike for every number of steps, and neither returns to IDLE (rule R86 for `start` and
`ver_in`, R39 for `buf_raddr`). That a stream presented outside IDLE has no effect either is log 5's DESIGN CHOICE, which
rests on R45 and R115 while BUSY and on no rule in DONE or FAULT. -/
def Obligations.HostInputsIgnoredAfterStart : Prop :=
  ∀ (n : Nat) (s t : State), s.st ≠ .idle → noReset s = true → noReset t = true → blockPart s = blockPart t →
    ∃ s' t', run n s = .next s' ∧ run n t = .next t' ∧ blockPart s' = blockPart t' ∧ s'.st ≠ .idle

/-- The stream stays as it is during a decode, and OFF moves exactly by the width of the Take the step performs (rules
R29, R45, R115): the host has no move that changes them outside IDLE, in DONE and FAULT by log 5's DESIGN CHOICE. -/
def Obligations.OnlyTakeMovesTheCursor : Prop :=
  ∀ s t : State, step s = .next t → t.st ≠ .idle →
    t.stream = s.stream ∧ t.off = s.off + (curN s).getD 0 ∧
    (∀ n, curN s = some n → n ≤ remaining s ∧ curData s = some (BitVec.ofNat 16 (takeValue n s)))

/-- Which registers a step may change, and when (rules R15, R17 to R21, R23, R24). -/
def Obligations.RegistersChangeOnlyAsStated : Prop :=
  ∀ s t : State, step s = .next t → s.ports.rst = false →
    t.params = s.params ∧
    (s.st ≠ .idle → t.verR = s.verR) ∧
    (¬ (s.st = .mode ∧ s.off + 4 ≤ s.stream.length) → t.modeR = s.modeR) ∧
    (¬ (s.st = .mode ∧ t.st = .len) → t.lenwR = s.lenwR ∧ t.chwR = s.chwR) ∧
    (s.st ≠ .idle ∧ s.st ≠ .len ∧ s.st ≠ .char → t.cnt = s.cnt) ∧
    (s.st ≠ .idle ∧ s.st ≠ .char → t.olen = s.olen) ∧
    (s.st ≠ .char → ∀ a, t.buf.read a = s.buf.read a) ∧
    (∀ a < s.olen, t.buf.read a = s.buf.read a) ∧
    (s.st ≠ .idle ∧ (s.st = .done ∨ t.st ≠ .done) → t.stopR = s.stopR) ∧
    (s.st ≠ .idle ∧ (s.st = .fault ∨ t.st ≠ .fault) → t.fcauseR = s.fcauseR)

/-! ## The byte segment (42_byte_segment) -/

/-- LEN UNDERRUN (rule R87). -/
def Obligations.LenUnderrunFaults : Prop :=
  ∀ s : State, s.st = .len → s.ports.rst = false → s.stream.length < s.off + s.lenwR.toNat →
    step s = .next (hostClock { s with fcauseR := .underrunLen, st := .fault })

/-- LEN READ (rule R88): COUNT is the next `LENW_R` bits, most significant first, zero-extended into CNT. -/
def Obligations.LenReadLoadsTheCount : Prop :=
  ∀ s : State, s.st = .len → s.ports.rst = false → s.off + s.lenwR.toNat ≤ s.stream.length →
    let c := natOfBits ((s.stream.drop s.off).take s.lenwR.toNat)
    c < 2 ^ s.lenwR.toNat ∧
    step s = .next (hostClock { s with
      off := s.off + s.lenwR.toNat, cnt := BitVec.ofNat 16 c, st := if c = 0 then .mode else .char })

/-- CHAR UNDERRUN (rule R89), on the first character as on a later one and whether or not the buffer is full (rule R99). -/
def Obligations.CharUnderrunFaults : Prop :=
  ∀ s : State, s.st = .char → s.ports.rst = false → s.stream.length < s.off + s.chwR.toNat →
    step s = .next (hostClock { s with fcauseR := .underrunChar, st := .fault })

/-- CHAR OVERFLOW (rule R90), and that it cannot arise with `BUF_CAP >= floor(L_MAX / 8)` in a state that meets `Inv`. -/
def Obligations.CharOverflowFaults : Prop :=
  ∀ s : State, s.st = .char → s.ports.rst = false → s.off + s.chwR.toNat ≤ s.stream.length →
    (s.olen = s.params.bufCap → step s = .next (hostClock { s with fcauseR := .overflow, st := .fault })) ∧
    (Inv s → s.params.lMax / 8 ≤ s.params.bufCap → s.olen ≠ s.params.bufCap)

/-- CHAR APPEND (rule R91): the byte goes to cell OLEN, every other cell stays, and OLEN counts up without wrapping; when the
count reaches 0 the next step is in MODE. -/
def Obligations.CharAppendStoresOneByte : Prop :=
  ∀ s : State, s.st = .char → s.ports.rst = false → s.off + s.chwR.toNat ≤ s.stream.length → s.olen < s.params.bufCap →
    let v := natOfBits ((s.stream.drop s.off).take s.chwR.toNat)
    ∃ m : Memory, (∀ a, m.read a = if a = s.olen then some (BitVec.ofNat 8 v) else s.buf.read a) ∧
      step s = .next (hostClock { s with
        off := s.off + s.chwR.toNat, buf := m, olenR := s.olenR + 1, cnt := s.cnt - 1,
        st := if s.cnt = 1 then .mode else .char }) ∧
      (s.olenR + 1).toNat = s.olen + 1

/-- Append (00_scope rule R9): one cell, at index OLEN; OLEN counts in its OLEN_W bits, so that under Append's precondition
it does not wrap (rule R2); the list of cells keeps its canonical form. -/
def Obligations.AppendWritesCellAtOlen : Prop :=
  ∀ (b : Byte) (s : State), s.buf.wf = true →
    (append b s).olen = (s.olen + 1) % 2 ^ olenW s.params ∧
    (s.olen < s.params.bufCap → (append b s).olen = s.olen + 1) ∧ (append b s).buf.wf = true ∧
    ∀ a, (append b s).buf.read a = if a = s.olen then some b else s.buf.read a

/-- Take (00_scope rule R8): the bit at OFF is the most significant bit of the value, the bit at OFF+n-1 is bit 0, and OFF
advances by `n`. -/
def Obligations.TakeReadsMostSignificantFirst : Prop :=
  ∀ (n : Nat) (s : State), avail n s = true →
    takeValue n s < 2 ^ n ∧ (∀ k < n, s.stream[s.off + k]? = some ((takeValue n s).testBit (n - 1 - k))) ∧
    takeAdvance n s = { s with off := s.off + n }

/-- The Takes of a decode have width 4, `LENW_R` in {8, 16}, or 8, and never more than the bits that remain (20_memory
rule R38, 10_state rule R30). -/
def Obligations.TakeWidthsAreFourEightSixteen : Prop :=
  ∀ (s : State) (n : Nat), Inv s → curN s = some n →
    n ≤ remaining s ∧
    ((s.st = .mode ∧ n = 4) ∨ (s.st = .len ∧ n = s.lenwR.toNat ∧ (n = 8 ∨ n = 16)) ∨
      (s.st = .char ∧ n = s.chwR.toNat ∧ n = 8))

/-- Every field of a decode that starts at a multiple of 4 starts at one (20_memory rule R37); in DONE and FAULT the host
does not move OFF by log 5's DESIGN CHOICE. -/
def Obligations.OffsetKeepsItsResidueModFour : Prop :=
  ∀ s t : State, Inv s → step s = .next t → t.st ≠ .idle → t.off % 4 = s.off % 4

/-- A whole byte segment (rule R92): after `2 + n` steps its bytes are appended in order and the block is in MODE after it;
a stream that ends inside COUNT or inside D[k] ends in the fault, at the offset and with the bytes rule R92 says. -/
def Obligations.ByteSegmentRunsWhole : Prop :=
  ∀ (s : State) (w n : Nat) (data : List Byte) (rest : Bits),
    s.st = .mode → noReset s = true → lengthFieldBits .byte (tier s.verR) = some w → n < 2 ^ w →
    (s.stream.drop s.off = byteSegmentBits s.params.saCode w n data ++ rest → n = data.length →
      s.olen + n ≤ s.params.bufCap →
      ∃ t, run (2 + n) s = .next t ∧ t.st = .mode ∧ t.off = s.off + 4 + w + 8 * n ∧ t.cnt = 0 ∧ t.olen = s.olen + n ∧
        t.stopR = s.stopR ∧ t.fcauseR = s.fcauseR ∧
        (∀ k < n, t.buf.read (s.olen + k) = data[k]?) ∧
        (∀ a, a < s.olen ∨ s.olen + n ≤ a → t.buf.read a = s.buf.read a)) ∧
    (s.stream.drop s.off = [false, true, false, false] ++ rest → rest.length < w →
      ∃ t, run 2 s = .next t ∧ t.st = .fault ∧ t.fcauseR = .underrunLen ∧ t.off = s.off + 4 ∧ t.olen = s.olen) ∧
    (s.stream.drop s.off = byteSegmentBits s.params.saCode w n data ++ rest → data.length < n → rest.length < 8 →
      s.olen + data.length ≤ s.params.bufCap →
      ∃ t, run (3 + data.length) s = .next t ∧ t.st = .fault ∧ t.fcauseR = .underrunChar ∧
        t.off = s.off + 4 + w + 8 * data.length ∧ t.olen = s.olen + data.length ∧
        ∀ k < data.length, t.buf.read (s.olen + k) = data[k]?)

/-- Round trip (rule R93), from any offset: encoding any byte sequence as a byte segment and decoding it with the matching
version gives the sequence back, followed by nothing, by END, or by 1 to 3 bits of anything. -/
def Obligations.EncodedBytesDecodeBack : Prop :=
  ∀ (s : State) (w : Nat) (data : List Byte) (tail : Bits),
    Launch s → lengthFieldBits .byte (tier s.ports.verIn) = some w → data.length < 2 ^ w →
    data.length ≤ s.params.bufCap →
    s.stream.drop s.off = byteSegmentBits s.params.saCode w data.length data ++ tail →
    tail.length ≤ 3 ∨ tail = [false, false, false, false] →
    ∃ t, run (data.length + 4) s = .next t ∧ t.st = .done ∧ decodeResult t = some data

/-! ## Faults and stops (60_exceptions) -/

/-- The block raises exactly three faults, each on its own condition, with the record rule R95 gives. -/
def Obligations.FaultsAreExactlyThree : Prop :=
  ∀ s t : State, Inv s → s.ports.rst = false → s.st ≠ .fault → step s = .next t →
    (t.st = .fault ↔
      (s.st = .len ∧ remaining s < s.lenwR.toNat) ∨ (s.st = .char ∧ remaining s < s.chwR.toNat) ∨
      (s.st = .char ∧ s.chwR.toNat ≤ remaining s ∧ s.olen = s.params.bufCap)) ∧
    (t.st = .fault → t.modeR = 0b0100 ∧ t.off = s.off ∧ t.lenwR = s.lenwR ∧ t.chwR = s.chwR ∧ t.cnt = s.cnt ∧
      t.olen = s.olen ∧
      t.fcauseR = if s.st = .len then .underrunLen else if remaining s < s.chwR.toNat then .underrunChar else .overflow)

/-- Faults are precise: the step that enters FAULT changes FCAUSE_R and ST and nothing else, and performs no Take (rules
R10, R97). -/
def Obligations.FaultsArePrecise : Prop :=
  ∀ s t : State, step s = .next t → s.st ≠ .fault → t.st = .fault →
    ∃ c, c ≠ .none ∧ t = hostClock { s with fcauseR := c, st := .fault } ∧ curTake s = false

/-- Normal stops are not faults: the step that enters DONE leaves FCAUSE_R, and STOP_R says which of the five reasons it was
(rules R23, R96). -/
def Obligations.StopsAreNotFaults : Prop :=
  ∀ s t : State, step s = .next t → s.st ≠ .done → t.st = .done →
    s.st = .mode ∧ t.fcauseR = s.fcauseR ∧ t.olen = s.olen ∧ (∀ a, t.buf.read a = s.buf.read a) ∧
    t.stopR =
      if s.stream.length < s.off + 4 then .noBits
      else match modeFromCode s.params.saCode t.modeR with
        | none => .undefined
        | some .endMsg => .endMsg
        | some .byte => .badVersion
        | some _ => .unsupported

/-- STATUS (10_state rule R25): its fields, and that at most one of BUSY, DONE and FAULT is set. -/
def Obligations.StatusFields : Prop :=
  ∀ s : State,
    (status s).getLsbD 0 = decide (s.st = .mode ∨ s.st = .len ∨ s.st = .char) ∧
    (status s).getLsbD 1 = decide (s.st = .done) ∧ (status s).getLsbD 2 = decide (s.st = .fault) ∧
    (status s).extractLsb' 3 3 = stopCode s.stopR ∧ (status s).extractLsb' 6 2 = fcauseCode s.fcauseR ∧
    (status s).extractLsb' 8 4 = s.modeR ∧
    ((status s).extractLsb' 0 3 = 0 ↔ s.st = .idle)

/-- A host read (20_memory rule R40) at every address `buf_raddr` can carry (10_state rule R28): the cell's value below
OLEN; otherwise a host-read fault and no byte. -/
def Obligations.HostReadGivesWrittenCellsOnly : Prop :=
  ∀ (s : State) (i : BitVec (olenW s.params)), Inv s →
    (i.toNat < s.olen → ∃ b, s.buf.read i.toNat = some b ∧ hostRead s i = .next b) ∧
    (s.olen ≤ i.toNat ∨ s.params.bufCap ≤ i.toNat → hostRead s i = .fault (.hostReadNoValue i.toNat))

/-- `bitlen(n)` is the smallest width that holds `n`, and the widths that vary with the parameters are its values at L_MAX
and BUF_CAP (00_scope rule R2). -/
def Obligations.VaryingWidthsAreSmallest : Prop :=
  ∀ p : Params, (offW p = bitlen p.lMax ∧ olenW p = bitlen p.bufCap) ∧
    ∀ n w : Nat, n < 2 ^ w ↔ bitlen n ≤ w

/-- In a state that meets `Inv` the natural number OFF fits in OFF_W bits and OLEN's register counts every byte, so that the
ports `cur_rem` and `olen` carry the numbers they stand for, and every written cell has an address `buf_raddr` can carry
(00_scope rule R2, 10_state rules R27 to R29, R31). -/
def Obligations.OffsetAndCountFitTheirWidths : Prop :=
  ∀ s : State, Inv s →
    s.off < 2 ^ offW s.params ∧ (curRemPort s).toNat = remaining s ∧ (olenPort s).toNat = s.olen ∧
    ∀ a b, s.buf.read a = some b → ∃ i : BitVec (olenW s.params), i.toNat = a ∧ hostRead s i = .next b

/-! ## The machine as a whole -/

/-- Some rule applies to every state and input, and none stops the machine (00_scope rule R11). -/
def Obligations.EveryStepAnswersAState : Prop :=
  ∀ s : State, ∃ t, step s = .next t

/-- The state after reset meets the invariant (rule R32; the cursor, the parameters and the inputs are the model's choice,
logs 2, 6, 7). -/
def Obligations.ResetMeetsInv : Prop := Inv State.reset

/-- Every step keeps the invariant (rules R14, R18 to R24, R27). -/
def Obligations.EveryStepKeepsInv : Prop :=
  ∀ s t : State, Inv s → step s = .next t → Inv t

/-- Termination (41_segment_dispatch rule R84): a launched decode is in DONE or FAULT within `floor(rem0 / 4) + 2` steps, and
has appended at most `floor(rem0 / 8)` bytes. -/
def Obligations.DecodeEndsWithinTheBound : Prop :=
  ∀ s : State, Launch s →
    ∃ k t, k ≤ remaining s / 4 + 2 ∧ run k s = .next t ∧ ended t = true ∧ t.olen ≤ remaining s / 8

/-- The state machine computes the source's recursive decode (41_segment_dispatch rules R71, R84, R85): with room for every
byte, a launched decode ends with the bytes and the unread bits that decode gives, and in FAULT exactly where it starves. -/
def Obligations.RunIsTheSourceDecode : Prop :=
  ∀ s : State, Launch s → remaining s / 8 ≤ s.params.bufCap →
    ∃ k t, run k s = .next t ∧ ended t = true ∧
      match sourceDecode s.params.saCode (tier s.ports.verIn) (remaining s / 4 + 1) (s.stream.drop s.off) [] with
      | none => t.st = .fault ∧ decodeResult t = none
      | some (bytes, unread) => t.st = .done ∧ decodeResult t = some bytes ∧ remaining t = unread

/-- OVERFLOW is unreachable when the buffer holds `floor((L - OFF0) / 8)` bytes (42_byte_segment rule R90, 70_reset_and_hazards
rule R112). -/
def Obligations.OverflowUnreachableWithRoom : Prop :=
  ∀ (n : Nat) (s t : State), Launch s → remaining s / 8 ≤ s.params.bufCap → run n s = .next t → t.fcauseR ≠ .overflow

/-- A decode at an invalid version reads mode indicators only and appends nothing (41_segment_dispatch rule R76, 10_state rule
R15). -/
def Obligations.InvalidVersionAppendsNothing : Prop :=
  ∀ (n : Nat) (s t : State), Launch s → tier s.ports.verIn = .none → run n s = .next t →
    t.olen = 0 ∧ t.st ≠ .len ∧ t.st ≠ .char ∧ t.st ≠ .fault ∧ ∀ a, t.buf.read a = none
end

