-- ==== Sys2Proof/Laws/Bits.lean ====
section
/-! SUPPORT. Fields and numbers: assembling bits most significant first (00_scope rule R8) and writing them out again. -/

namespace Sys2Proof

theorem foldl_bits (bs : Bits) (v : Nat) :
    bs.foldl (fun v b => 2 * v + b.toNat) v = v * 2 ^ bs.length + natOfBits bs := by
  induction bs generalizing v with
  | nil => simp [natOfBits]
  | cons b bs ih =>
    have h0 : natOfBits (b :: bs) = b.toNat * 2 ^ bs.length + natOfBits bs := by
      simp only [natOfBits, List.foldl_cons]
      exact (ih _).trans (by simp [natOfBits])
    rw [List.foldl_cons, ih, h0, List.length_cons, Nat.pow_succ]
    ring

@[simp] theorem natOfBits_nil : natOfBits [] = 0 := rfl

theorem natOfBits_cons (b : Bool) (bs : Bits) :
    natOfBits (b :: bs) = b.toNat * 2 ^ bs.length + natOfBits bs := by
  have h := foldl_bits bs (2 * 0 + b.toNat)
  simpa [natOfBits] using h

theorem natOfBits_append (as bs : Bits) : natOfBits (as ++ bs) = natOfBits as * 2 ^ bs.length + natOfBits bs := by
  have h := foldl_bits bs (natOfBits as)
  simpa [natOfBits, List.foldl_append] using h

theorem natOfBits_lt (bs : Bits) : natOfBits bs < 2 ^ bs.length := by
  induction bs with
  | nil => simp
  | cons b bs ih =>
    rw [natOfBits_cons, List.length_cons, Nat.pow_succ]
    cases b <;> simp <;> omega

@[simp] theorem length_bitsOfNat (w n : Nat) : (bitsOfNat w n).length = w := by
  induction w with
  | zero => rfl
  | succ w ih => simp [bitsOfNat, ih]

theorem natOfBits_bitsOfNat_mod (w n : Nat) : natOfBits (bitsOfNat w n) = n % 2 ^ w := by
  induction w with
  | zero => simp [bitsOfNat, Nat.mod_one]
  | succ w ih =>
    rw [bitsOfNat, natOfBits_cons, ih, length_bitsOfNat, Nat.mod_pow_succ, Nat.testBit, Nat.shiftRight_eq_div_pow]
    have h : n / 2 ^ w % 2 = 0 ∨ n / 2 ^ w % 2 = 1 := by omega
    rcases h with h | h
    · simp [h, Nat.and_comm 1, Nat.and_one_is_mod]
    · simp [h, Nat.and_comm 1, Nat.and_one_is_mod]; omega

/-- Writing a number in `w` bits and reading it back gives it, if it fits. -/
theorem natOfBits_bitsOfNat (w n : Nat) (h : n < 2 ^ w) : natOfBits (bitsOfNat w n) = n := by
  rw [natOfBits_bitsOfNat_mod, Nat.mod_eq_of_lt h]

/-- Bit `n-1-k` of a field's value is its `k`-th stream bit (rule R8). -/
theorem testBit_natOfBits (bs : Bits) (k : Nat) (h : k < bs.length) :
    (natOfBits bs).testBit (bs.length - 1 - k) = bs[k] := by
  induction bs generalizing k with
  | nil => simp at h
  | cons b bs ih =>
    have hlt := natOfBits_lt bs
    rw [natOfBits_cons]
    cases k with
    | zero =>
      simp only [List.length_cons, Nat.add_sub_cancel, Nat.sub_zero, List.getElem_cons_zero]
      cases b
      · simpa using Nat.testBit_lt_two_pow hlt
      · simp only [Bool.toNat_true, Nat.one_mul]
        rw [Nat.testBit_two_pow_add_eq, Nat.testBit_lt_two_pow hlt]; rfl
    | succ k =>
      have hk : k < bs.length := by simpa using h
      have e : bs.length - 1 - k = bs.length - (k + 1) := by omega
      simp only [List.length_cons, Nat.add_sub_cancel, List.getElem_cons_succ]
      rw [← ih k hk, e]
      cases b
      · simp
      · simp only [Bool.toNat_true, Nat.one_mul]
        exact Nat.testBit_two_pow_add_gt (by omega) _

theorem getElem?_natOfBits (bs : Bits) (k : Nat) (h : k < bs.length) :
    bs[k]? = some ((natOfBits bs).testBit (bs.length - 1 - k)) := by
  rw [testBit_natOfBits bs k h, List.getElem?_eq_getElem h]

/-- Reading bits as a number and writing it out again gives the bits. -/
theorem bitsOfNat_natOfBits (bs : Bits) : bitsOfNat bs.length (natOfBits bs) = bs := by
  suffices h : ∀ v, bitsOfNat bs.length (v * 2 ^ bs.length + natOfBits bs) = bs by simpa using h 0
  induction bs with
  | nil => intro v; rfl
  | cons b bs ih =>
    intro v
    have e : v * 2 ^ (b :: bs).length + natOfBits (b :: bs) = (2 * v + b.toNat) * 2 ^ bs.length + natOfBits bs := by
      rw [natOfBits_cons, List.length_cons, Nat.pow_succ]; ring
    rw [e, List.length_cons, bitsOfNat, ih]
    congr 1
    rw [Nat.mul_comm, Nat.testBit_two_pow_mul_add _ (natOfBits_lt bs)]
    cases b <;> simp

@[simp] theorem length_bitsOfBytes (bs : List Byte) : (bitsOfBytes bs).length = 8 * bs.length := by
  induction bs with
  | nil => rfl
  | cons b bs ih => simp only [bitsOfBytes, List.flatMap_cons, List.length_append, length_bitsOfNat] at *; rw [ih, List.length_cons]; omega

@[simp] theorem bitsOfBytes_nil : bitsOfBytes [] = [] := rfl

theorem bitsOfBytes_cons (b : Byte) (bs : List Byte) : bitsOfBytes (b :: bs) = bitsOfNat 8 b.toNat ++ bitsOfBytes bs := by
  simp [bitsOfBytes]

theorem natOfBits_byte (b : Byte) : BitVec.ofNat 8 (natOfBits (bitsOfNat 8 b.toNat)) = b := by
  rw [natOfBits_bitsOfNat _ _ (by simpa using b.isLt)]; simp

end Sys2Proof
end

