-- ==== Sys2Proof/Laws/Decode.lean ====
section
/-! SUPPORT. The code map and its inverse (30_encoding rule R55, 40_field_width_rom rule R60). -/

namespace Sys2Proof

theorem decodeCode_encode (sa : SaCode) (i : Instr) (h : i.wellFormed = true) : decodeCode sa (encode sa i) = i := by
  cases i with
  | undef c =>
    have hc : ∀ c : Code, (Instr.undef c).wellFormed = true → ∀ sa, decodeCode sa c = .undef c := by
      intro c h sa; revert c; cases sa <;> decide
    exact hc c h sa
  | _ => cases sa <;> rfl

theorem encode_decodeCode (sa : SaCode) (c : Code) : encode sa (decodeCode sa c) = c := by
  revert c; cases sa <;> decide

theorem decodeCode_wellFormed (sa : SaCode) (c : Code) : (decodeCode sa c).wellFormed = true := by
  revert c; cases sa <;> decide

theorem decodeBits_encodeBits (sa : SaCode) (i : Instr) (rest : Bits) (h : i.wellFormed = true) :
    decodeBits sa (encodeBits sa i ++ rest) = .ok (i, rest) := by
  have e : encodeBits sa i = [(encode sa i).toNat.testBit 3, (encode sa i).toNat.testBit 2,
      (encode sa i).toNat.testBit 1, (encode sa i).toNat.testBit 0] := rfl
  have hn : natOfBits (encodeBits sa i) = (encode sa i).toNat := natOfBits_bitsOfNat 4 _ (by simpa using (encode sa i).isLt)
  rw [e] at hn ⊢
  simp only [List.cons_append, List.nil_append, decodeBits, hn, BitVec.ofNat_toNat, BitVec.setWidth_eq]
  rw [decodeCode_encode sa i h]

/-- The decoder answers exactly when 4 bits are there, and then dispatches on them (rules R70, R71). -/
theorem decodeBits_of_four_le (sa : SaCode) (bs : Bits) (h : 4 ≤ bs.length) :
    decodeBits sa bs = .ok (decodeCode sa (BitVec.ofNat 4 (natOfBits (bs.take 4))), bs.drop 4) := by
  match bs, h with
  | b3 :: b2 :: b1 :: b0 :: rest, _ => simp [decodeBits]

theorem decodeBits_of_lt_four (sa : SaCode) (bs : Bits) (h : bs.length < 4) :
    decodeBits sa bs = .error .fewerThanFourBits := by
  match bs, h with
  | [], _ => rfl
  | [_], _ => rfl
  | [_, _], _ => rfl
  | [_, _, _], _ => rfl

theorem decodeBits_ok (sa : SaCode) (bs rest : Bits) (i : Instr) (h : decodeBits sa bs = .ok (i, rest)) :
    i.wellFormed = true ∧ bs = encodeBits sa i ++ rest := by
  by_cases hl : 4 ≤ bs.length
  · rw [decodeBits_of_four_le sa bs hl] at h
    injection h with h
    injection h with hi hr
    subst hi hr
    refine ⟨decodeCode_wellFormed _ _, ?_⟩
    have ht : (bs.take 4).length = 4 := by simpa using hl
    have hlt := natOfBits_lt (bs.take 4)
    rw [ht] at hlt
    have e : encodeBits sa (decodeCode sa (BitVec.ofNat 4 (natOfBits (bs.take 4)))) = bs.take 4 := by
      rw [encodeBits, encode_decodeCode, BitVec.toNat_ofNat, Nat.mod_eq_of_lt hlt]
      have hb := bitsOfNat_natOfBits (bs.take 4)
      rwa [ht] at hb
    rw [e, List.take_append_drop]
  · rw [decodeBits_of_lt_four sa bs (by omega)] at h
    cases h

end Sys2Proof
end

