-- ==== Sys2Proof/Laws/Memory.lean ====
section
/-! SUPPORT. Reading and writing the buffer: a read after a write, and the canonical form (10_state rule R22). -/

namespace Sys2Proof.Machine

theorem read_write (m : Memory) (i : Nat) (v : Byte) (a : Nat) :
    (m.write i v).read a = if a = i then some v else m.read a := by
  induction m with
  | nil => simp [Memory.write, Memory.read, eq_comm]
  | cons c m ih =>
    obtain ⟨k, b⟩ := c
    simp only [Memory.write]
    split
    · simp [Memory.read, eq_comm]
    · split
      · subst k
        by_cases ha : i = a
        · simp [Memory.read, ha]
        · simp [Memory.read, ha, Ne.symm ha]
      · rename_i hk
        simp only [Memory.read, ih]
        by_cases ha : k = a
        · subst ha; simp [Ne.symm hk]
        · simp [ha]

theorem mem_write (m : Memory) (i : Nat) (v : Byte) (c : Host.Cell) (h : c ∈ m.write i v) : c = (i, v) ∨ c ∈ m := by
  induction m with
  | nil => simpa [Memory.write] using h
  | cons d m ih =>
    obtain ⟨k, b⟩ := d
    simp only [Memory.write] at h
    split at h
    · simpa using h
    · split at h
      · rcases List.mem_cons.mp h with h | h
        · exact .inl h
        · exact .inr (List.mem_cons_of_mem _ h)
      · rcases List.mem_cons.mp h with h | h
        · exact .inr (h ▸ List.mem_cons_self)
        · exact (ih h).imp id (List.mem_cons_of_mem _)

/-- Every write keeps the canonical form. -/
theorem wf_write (m : Memory) (i : Nat) (v : Byte) (h : m.wf = true) : (m.write i v).wf = true := by
  simp only [Memory.wf, decide_eq_true_eq] at *
  induction m with
  | nil => simp [Memory.write]
  | cons d m ih =>
    obtain ⟨k, b⟩ := d
    have ⟨h1, h2⟩ := List.pairwise_cons.mp h
    simp only [Memory.write]
    split
    · rename_i hik
      refine List.pairwise_cons.mpr ⟨fun c hc => ?_, h⟩
      rcases List.mem_cons.mp hc with rfl | hc
      · exact hik
      · exact Nat.lt_trans hik (h1 c hc)
    · split
      · rename_i hik; subst hik; exact List.pairwise_cons.mpr ⟨h1, h2⟩
      · refine List.pairwise_cons.mpr ⟨fun c hc => ?_, ih h2⟩
        rcases mem_write m i v c hc with rfl | hc
        · show k < i; omega
        · exact h1 c hc

theorem wf_nil : Memory.wf [] = true := rfl

/-- Writing above every written index adds the cell at the end. -/
theorem write_above (m : Memory) (i : Nat) (v : Byte) (h : ∀ c ∈ m, c.1 < i) : m.write i v = m ++ [(i, v)] := by
  induction m with
  | nil => rfl
  | cons d m ih =>
    obtain ⟨k, b⟩ := d
    have hk : k < i := h (k, b) List.mem_cons_self
    rw [Memory.write, if_neg (by omega), if_neg (by omega), ih (fun c hc => h c (List.mem_cons_of_mem _ hc))]
    rfl

/-- A cell has a value exactly when its index is listed. -/
theorem read_isSome (m : Memory) (a : Nat) : (m.read a).isSome = true ↔ a ∈ m.map Prod.fst := by
  induction m with
  | nil => simp [Memory.read]
  | cons d m ih =>
    obtain ⟨k, b⟩ := d
    simp only [Memory.read, List.map_cons, List.mem_cons]
    by_cases hk : k = a
    · simp [hk]
    · rw [if_neg hk, ih]
      exact ⟨.inr, fun h => h.resolve_left (fun e => hk e.symm)⟩

end Sys2Proof.Machine
end

