-- ==== Sys2Proof/Laws/PerInstr.lean ====
section
/-! SUPPORT. The round trip of an indicator, constructor by constructor (30_encoding rules R55, R58). -/

namespace Sys2Proof.Laws.IndicatorRoundTrip

/-- A well-formed instruction decodes from its own bits, whatever follows, for every `SA_CODE`. -/
def Statement (i : Instr) : Prop :=
  ∀ (sa : SaCode) (rest : Bits), i.wellFormed = true → decodeBits sa (encodeBits sa i ++ rest) = .ok (i, rest)

theorem endMsg : Statement .endMsg := fun sa rest h => decodeBits_encodeBits sa _ rest h

theorem num : Statement .num := fun sa rest h => decodeBits_encodeBits sa _ rest h

theorem alnum : Statement .alnum := fun sa rest h => decodeBits_encodeBits sa _ rest h

theorem sa : Statement .sa := fun sa rest h => decodeBits_encodeBits sa _ rest h

theorem byte : Statement .byte := fun sa rest h => decodeBits_encodeBits sa _ rest h

theorem fnc1_1 : Statement .fnc1_1 := fun sa rest h => decodeBits_encodeBits sa _ rest h

theorem eci : Statement .eci := fun sa rest h => decodeBits_encodeBits sa _ rest h

theorem kanji : Statement .kanji := fun sa rest h => decodeBits_encodeBits sa _ rest h

theorem fnc1_2 : Statement .fnc1_2 := fun sa rest h => decodeBits_encodeBits sa _ rest h

theorem undef (c : Code) : Statement (.undef c) := fun sa rest h => decodeBits_encodeBits sa _ rest h

end Sys2Proof.Laws.IndicatorRoundTrip
end

