-- ==== Sys2Proof/Laws/State.lean ====
section
/-! SUPPORT. What each update of the state does to each field: one lemma a field, so that no later proof unfolds a record
update. -/

namespace Sys2Proof.Machine

/-- `bitlen(n)` bits hold `n` (00_scope rule R2). -/
theorem lt_two_pow_bitlen (n : Nat) : n < 2 ^ bitlen n := by
  unfold bitlen
  split
  · subst n; decide
  · exact Nat.lt_log2_self

/-! ## State.resetWith: the values reset leaves (10_state rule R32). -/

@[simp] theorem resetWith_params {p : Params} (bs : Bits) (n : Nat) (x : Ports p) (q : List (HostMove p)) :
    (State.resetWith bs n x q).params = p := rfl
@[simp] theorem resetWith_st {p : Params} (bs : Bits) (n : Nat) (x : Ports p) (q : List (HostMove p)) :
    (State.resetWith bs n x q).st = .idle := rfl
@[simp] theorem resetWith_verR {p : Params} (bs : Bits) (n : Nat) (x : Ports p) (q : List (HostMove p)) :
    (State.resetWith bs n x q).verR = 0 := rfl
@[simp] theorem resetWith_modeR {p : Params} (bs : Bits) (n : Nat) (x : Ports p) (q : List (HostMove p)) :
    (State.resetWith bs n x q).modeR = 0 := rfl
@[simp] theorem resetWith_lenwR {p : Params} (bs : Bits) (n : Nat) (x : Ports p) (q : List (HostMove p)) :
    (State.resetWith bs n x q).lenwR = 0 := rfl
@[simp] theorem resetWith_chwR {p : Params} (bs : Bits) (n : Nat) (x : Ports p) (q : List (HostMove p)) :
    (State.resetWith bs n x q).chwR = 0 := rfl
@[simp] theorem resetWith_cnt {p : Params} (bs : Bits) (n : Nat) (x : Ports p) (q : List (HostMove p)) :
    (State.resetWith bs n x q).cnt = 0 := rfl
@[simp] theorem resetWith_olen {p : Params} (bs : Bits) (n : Nat) (x : Ports p) (q : List (HostMove p)) :
    (State.resetWith bs n x q).olen = 0 := by simp [State.olen, State.resetWith]
@[simp] theorem resetWith_buf {p : Params} (bs : Bits) (n : Nat) (x : Ports p) (q : List (HostMove p)) :
    (State.resetWith bs n x q).buf = [] := rfl
@[simp] theorem resetWith_stopR {p : Params} (bs : Bits) (n : Nat) (x : Ports p) (q : List (HostMove p)) :
    (State.resetWith bs n x q).stopR = .none := rfl
@[simp] theorem resetWith_fcauseR {p : Params} (bs : Bits) (n : Nat) (x : Ports p) (q : List (HostMove p)) :
    (State.resetWith bs n x q).fcauseR = .none := rfl
@[simp] theorem resetWith_stream {p : Params} (bs : Bits) (n : Nat) (x : Ports p) (q : List (HostMove p)) :
    (State.resetWith bs n x q).stream = bs := rfl
@[simp] theorem resetWith_off {p : Params} (bs : Bits) (n : Nat) (x : Ports p) (q : List (HostMove p)) :
    (State.resetWith bs n x q).off = n := rfl

/-! ## takeAdvance: Take moves the cursor and nothing else (00_scope rule R8). -/

@[simp] theorem takeAdvance_params (n : Nat) (s : State) : (takeAdvance n s).params = s.params := rfl
@[simp] theorem takeAdvance_st (n : Nat) (s : State) : (takeAdvance n s).st = s.st := rfl
@[simp] theorem takeAdvance_verR (n : Nat) (s : State) : (takeAdvance n s).verR = s.verR := rfl
@[simp] theorem takeAdvance_modeR (n : Nat) (s : State) : (takeAdvance n s).modeR = s.modeR := rfl
@[simp] theorem takeAdvance_lenwR (n : Nat) (s : State) : (takeAdvance n s).lenwR = s.lenwR := rfl
@[simp] theorem takeAdvance_chwR (n : Nat) (s : State) : (takeAdvance n s).chwR = s.chwR := rfl
@[simp] theorem takeAdvance_cnt (n : Nat) (s : State) : (takeAdvance n s).cnt = s.cnt := rfl
@[simp] theorem takeAdvance_olen (n : Nat) (s : State) : (takeAdvance n s).olen = s.olen := rfl
@[simp] theorem takeAdvance_buf (n : Nat) (s : State) : (takeAdvance n s).buf = s.buf := rfl
@[simp] theorem takeAdvance_stopR (n : Nat) (s : State) : (takeAdvance n s).stopR = s.stopR := rfl
@[simp] theorem takeAdvance_fcauseR (n : Nat) (s : State) : (takeAdvance n s).fcauseR = s.fcauseR := rfl
@[simp] theorem takeAdvance_stream (n : Nat) (s : State) : (takeAdvance n s).stream = s.stream := rfl
@[simp] theorem takeAdvance_off (n : Nat) (s : State) : (takeAdvance n s).off = s.off + n := rfl
@[simp] theorem takeAdvance_ports_rst (n : Nat) (s : State) : (takeAdvance n s).ports.rst = s.ports.rst := rfl
@[simp] theorem takeAdvance_ports_start (n : Nat) (s : State) : (takeAdvance n s).ports.start = s.ports.start := rfl
@[simp] theorem takeAdvance_ports_verIn (n : Nat) (s : State) : (takeAdvance n s).ports.verIn = s.ports.verIn := rfl

/-! ## takeIndicator: What every arm of MODE FETCH shares (41_segment_dispatch rule R71). -/

@[simp] theorem takeIndicator_params (i : Instr) (s : State) : (takeIndicator i s).params = s.params := rfl
@[simp] theorem takeIndicator_st (i : Instr) (s : State) : (takeIndicator i s).st = s.st := rfl
@[simp] theorem takeIndicator_verR (i : Instr) (s : State) : (takeIndicator i s).verR = s.verR := rfl
@[simp] theorem takeIndicator_modeR (i : Instr) (s : State) : (takeIndicator i s).modeR = encode s.params.saCode i := rfl
@[simp] theorem takeIndicator_lenwR (i : Instr) (s : State) : (takeIndicator i s).lenwR = s.lenwR := rfl
@[simp] theorem takeIndicator_chwR (i : Instr) (s : State) : (takeIndicator i s).chwR = s.chwR := rfl
@[simp] theorem takeIndicator_cnt (i : Instr) (s : State) : (takeIndicator i s).cnt = s.cnt := rfl
@[simp] theorem takeIndicator_olen (i : Instr) (s : State) : (takeIndicator i s).olen = s.olen := rfl
@[simp] theorem takeIndicator_buf (i : Instr) (s : State) : (takeIndicator i s).buf = s.buf := rfl
@[simp] theorem takeIndicator_stopR (i : Instr) (s : State) : (takeIndicator i s).stopR = s.stopR := rfl
@[simp] theorem takeIndicator_fcauseR (i : Instr) (s : State) : (takeIndicator i s).fcauseR = s.fcauseR := rfl
@[simp] theorem takeIndicator_stream (i : Instr) (s : State) : (takeIndicator i s).stream = s.stream := rfl
@[simp] theorem takeIndicator_off (i : Instr) (s : State) : (takeIndicator i s).off = s.off + 4 := rfl
@[simp] theorem takeIndicator_ports_rst (i : Instr) (s : State) : (takeIndicator i s).ports.rst = s.ports.rst := rfl
@[simp] theorem takeIndicator_ports_start (i : Instr) (s : State) : (takeIndicator i s).ports.start = s.ports.start := rfl
@[simp] theorem takeIndicator_ports_verIn (i : Instr) (s : State) : (takeIndicator i s).ports.verIn = s.ports.verIn := rfl

/-! ## skipIndicator: The arm of SA (41_segment_dispatch rule R75). -/

@[simp] theorem skipIndicator_params (i : Instr) (s : State) : (skipIndicator i s).params = s.params := rfl
@[simp] theorem skipIndicator_st (i : Instr) (s : State) : (skipIndicator i s).st = .mode := rfl
@[simp] theorem skipIndicator_verR (i : Instr) (s : State) : (skipIndicator i s).verR = s.verR := rfl
@[simp] theorem skipIndicator_modeR (i : Instr) (s : State) : (skipIndicator i s).modeR = encode s.params.saCode i := rfl
@[simp] theorem skipIndicator_lenwR (i : Instr) (s : State) : (skipIndicator i s).lenwR = s.lenwR := rfl
@[simp] theorem skipIndicator_chwR (i : Instr) (s : State) : (skipIndicator i s).chwR = s.chwR := rfl
@[simp] theorem skipIndicator_cnt (i : Instr) (s : State) : (skipIndicator i s).cnt = s.cnt := rfl
@[simp] theorem skipIndicator_olen (i : Instr) (s : State) : (skipIndicator i s).olen = s.olen := rfl
@[simp] theorem skipIndicator_buf (i : Instr) (s : State) : (skipIndicator i s).buf = s.buf := rfl
@[simp] theorem skipIndicator_stopR (i : Instr) (s : State) : (skipIndicator i s).stopR = s.stopR := rfl
@[simp] theorem skipIndicator_fcauseR (i : Instr) (s : State) : (skipIndicator i s).fcauseR = s.fcauseR := rfl
@[simp] theorem skipIndicator_stream (i : Instr) (s : State) : (skipIndicator i s).stream = s.stream := rfl
@[simp] theorem skipIndicator_off (i : Instr) (s : State) : (skipIndicator i s).off = s.off + 4 := rfl
@[simp] theorem skipIndicator_ports_rst (i : Instr) (s : State) : (skipIndicator i s).ports.rst = s.ports.rst := rfl
@[simp] theorem skipIndicator_ports_start (i : Instr) (s : State) : (skipIndicator i s).ports.start = s.ports.start := rfl
@[simp] theorem skipIndicator_ports_verIn (i : Instr) (s : State) : (skipIndicator i s).ports.verIn = s.ports.verIn := rfl

/-! ## latchWidths: The arm of BYTE that goes on to LEN (41_segment_dispatch rule R76). -/

@[simp] theorem latchWidths_params (i : Instr) (lw : BitVec 5) (cw : BitVec 4) (s : State) : (latchWidths i lw cw s).params = s.params := rfl
@[simp] theorem latchWidths_st (i : Instr) (lw : BitVec 5) (cw : BitVec 4) (s : State) : (latchWidths i lw cw s).st = .len := rfl
@[simp] theorem latchWidths_verR (i : Instr) (lw : BitVec 5) (cw : BitVec 4) (s : State) : (latchWidths i lw cw s).verR = s.verR := rfl
@[simp] theorem latchWidths_modeR (i : Instr) (lw : BitVec 5) (cw : BitVec 4) (s : State) : (latchWidths i lw cw s).modeR = encode s.params.saCode i := rfl
@[simp] theorem latchWidths_lenwR (i : Instr) (lw : BitVec 5) (cw : BitVec 4) (s : State) : (latchWidths i lw cw s).lenwR = lw := rfl
@[simp] theorem latchWidths_chwR (i : Instr) (lw : BitVec 5) (cw : BitVec 4) (s : State) : (latchWidths i lw cw s).chwR = cw := rfl
@[simp] theorem latchWidths_cnt (i : Instr) (lw : BitVec 5) (cw : BitVec 4) (s : State) : (latchWidths i lw cw s).cnt = s.cnt := rfl
@[simp] theorem latchWidths_olen (i : Instr) (lw : BitVec 5) (cw : BitVec 4) (s : State) : (latchWidths i lw cw s).olen = s.olen := rfl
@[simp] theorem latchWidths_buf (i : Instr) (lw : BitVec 5) (cw : BitVec 4) (s : State) : (latchWidths i lw cw s).buf = s.buf := rfl
@[simp] theorem latchWidths_stopR (i : Instr) (lw : BitVec 5) (cw : BitVec 4) (s : State) : (latchWidths i lw cw s).stopR = s.stopR := rfl
@[simp] theorem latchWidths_fcauseR (i : Instr) (lw : BitVec 5) (cw : BitVec 4) (s : State) : (latchWidths i lw cw s).fcauseR = s.fcauseR := rfl
@[simp] theorem latchWidths_stream (i : Instr) (lw : BitVec 5) (cw : BitVec 4) (s : State) : (latchWidths i lw cw s).stream = s.stream := rfl
@[simp] theorem latchWidths_off (i : Instr) (lw : BitVec 5) (cw : BitVec 4) (s : State) : (latchWidths i lw cw s).off = s.off + 4 := rfl
@[simp] theorem latchWidths_ports_rst (i : Instr) (lw : BitVec 5) (cw : BitVec 4) (s : State) : (latchWidths i lw cw s).ports.rst = s.ports.rst := rfl
@[simp] theorem latchWidths_ports_start (i : Instr) (lw : BitVec 5) (cw : BitVec 4) (s : State) : (latchWidths i lw cw s).ports.start = s.ports.start := rfl
@[simp] theorem latchWidths_ports_verIn (i : Instr) (lw : BitVec 5) (cw : BitVec 4) (s : State) : (latchWidths i lw cw s).ports.verIn = s.ports.verIn := rfl

/-! ## append: Append (00_scope rule R9). -/

@[simp] theorem append_params (b : Byte) (s : State) : (append b s).params = s.params := rfl
@[simp] theorem append_st (b : Byte) (s : State) : (append b s).st = s.st := rfl
@[simp] theorem append_verR (b : Byte) (s : State) : (append b s).verR = s.verR := rfl
@[simp] theorem append_modeR (b : Byte) (s : State) : (append b s).modeR = s.modeR := rfl
@[simp] theorem append_lenwR (b : Byte) (s : State) : (append b s).lenwR = s.lenwR := rfl
@[simp] theorem append_chwR (b : Byte) (s : State) : (append b s).chwR = s.chwR := rfl
@[simp] theorem append_cnt (b : Byte) (s : State) : (append b s).cnt = s.cnt := rfl
@[simp] theorem append_olen (b : Byte) (s : State) : (append b s).olen = (s.olen + 1) % 2 ^ olenW s.params := by
  simp [State.olen, append]
@[simp] theorem append_buf (b : Byte) (s : State) : (append b s).buf = s.buf.write s.olen b := rfl
@[simp] theorem append_stopR (b : Byte) (s : State) : (append b s).stopR = s.stopR := rfl
@[simp] theorem append_fcauseR (b : Byte) (s : State) : (append b s).fcauseR = s.fcauseR := rfl
@[simp] theorem append_stream (b : Byte) (s : State) : (append b s).stream = s.stream := rfl
@[simp] theorem append_off (b : Byte) (s : State) : (append b s).off = s.off := rfl
@[simp] theorem append_ports_rst (b : Byte) (s : State) : (append b s).ports.rst = s.ports.rst := rfl
@[simp] theorem append_ports_start (b : Byte) (s : State) : (append b s).ports.start = s.ports.start := rfl
@[simp] theorem append_ports_verIn (b : Byte) (s : State) : (append b s).ports.verIn = s.ports.verIn := rfl

/-- Where Append's precondition holds, `OLEN` does not wrap (00_scope rules R2, R9). -/
theorem olen_succ_lt (s : State) (h : s.olen < s.params.bufCap) : s.olen + 1 < 2 ^ olenW s.params :=
  Nat.lt_of_le_of_lt h (lt_two_pow_bitlen _)

theorem append_olen_of_room (b : Byte) (s : State) (h : s.olen < s.params.bufCap) : (append b s).olen = s.olen + 1 := by
  rw [append_olen, Nat.mod_eq_of_lt (olen_succ_lt s h)]

/-! ## stopWith: Entering DONE (60_exceptions rule R96). -/

@[simp] theorem stopWith_params (r : StopReason) (s : State) : (stopWith r s).params = s.params := rfl
@[simp] theorem stopWith_st (r : StopReason) (s : State) : (stopWith r s).st = .done := rfl
@[simp] theorem stopWith_verR (r : StopReason) (s : State) : (stopWith r s).verR = s.verR := rfl
@[simp] theorem stopWith_modeR (r : StopReason) (s : State) : (stopWith r s).modeR = s.modeR := rfl
@[simp] theorem stopWith_lenwR (r : StopReason) (s : State) : (stopWith r s).lenwR = s.lenwR := rfl
@[simp] theorem stopWith_chwR (r : StopReason) (s : State) : (stopWith r s).chwR = s.chwR := rfl
@[simp] theorem stopWith_cnt (r : StopReason) (s : State) : (stopWith r s).cnt = s.cnt := rfl
@[simp] theorem stopWith_olen (r : StopReason) (s : State) : (stopWith r s).olen = s.olen := rfl
@[simp] theorem stopWith_buf (r : StopReason) (s : State) : (stopWith r s).buf = s.buf := rfl
@[simp] theorem stopWith_stopR (r : StopReason) (s : State) : (stopWith r s).stopR = r := rfl
@[simp] theorem stopWith_fcauseR (r : StopReason) (s : State) : (stopWith r s).fcauseR = s.fcauseR := rfl
@[simp] theorem stopWith_stream (r : StopReason) (s : State) : (stopWith r s).stream = s.stream := rfl
@[simp] theorem stopWith_off (r : StopReason) (s : State) : (stopWith r s).off = s.off := rfl
@[simp] theorem stopWith_ports_rst (r : StopReason) (s : State) : (stopWith r s).ports.rst = s.ports.rst := rfl
@[simp] theorem stopWith_ports_start (r : StopReason) (s : State) : (stopWith r s).ports.start = s.ports.start := rfl
@[simp] theorem stopWith_ports_verIn (r : StopReason) (s : State) : (stopWith r s).ports.verIn = s.ports.verIn := rfl

/-! ## raiseFault: Entering FAULT (60_exceptions rule R97). -/

@[simp] theorem raiseFault_params (c : FaultCause) (s : State) : (raiseFault c s).params = s.params := rfl
@[simp] theorem raiseFault_st (c : FaultCause) (s : State) : (raiseFault c s).st = .fault := rfl
@[simp] theorem raiseFault_verR (c : FaultCause) (s : State) : (raiseFault c s).verR = s.verR := rfl
@[simp] theorem raiseFault_modeR (c : FaultCause) (s : State) : (raiseFault c s).modeR = s.modeR := rfl
@[simp] theorem raiseFault_lenwR (c : FaultCause) (s : State) : (raiseFault c s).lenwR = s.lenwR := rfl
@[simp] theorem raiseFault_chwR (c : FaultCause) (s : State) : (raiseFault c s).chwR = s.chwR := rfl
@[simp] theorem raiseFault_cnt (c : FaultCause) (s : State) : (raiseFault c s).cnt = s.cnt := rfl
@[simp] theorem raiseFault_olen (c : FaultCause) (s : State) : (raiseFault c s).olen = s.olen := rfl
@[simp] theorem raiseFault_buf (c : FaultCause) (s : State) : (raiseFault c s).buf = s.buf := rfl
@[simp] theorem raiseFault_stopR (c : FaultCause) (s : State) : (raiseFault c s).stopR = s.stopR := rfl
@[simp] theorem raiseFault_fcauseR (c : FaultCause) (s : State) : (raiseFault c s).fcauseR = c := rfl
@[simp] theorem raiseFault_stream (c : FaultCause) (s : State) : (raiseFault c s).stream = s.stream := rfl
@[simp] theorem raiseFault_off (c : FaultCause) (s : State) : (raiseFault c s).off = s.off := rfl
@[simp] theorem raiseFault_ports_rst (c : FaultCause) (s : State) : (raiseFault c s).ports.rst = s.ports.rst := rfl
@[simp] theorem raiseFault_ports_start (c : FaultCause) (s : State) : (raiseFault c s).ports.start = s.ports.start := rfl
@[simp] theorem raiseFault_ports_verIn (c : FaultCause) (s : State) : (raiseFault c s).ports.verIn = s.ports.verIn := rfl

/-! ## resetBlock: Reset (10_state rule R32). -/

@[simp] theorem resetBlock_params (s : State) : (resetBlock s).params = s.params := rfl
@[simp] theorem resetBlock_st (s : State) : (resetBlock s).st = .idle := rfl
@[simp] theorem resetBlock_verR (s : State) : (resetBlock s).verR = 0 := rfl
@[simp] theorem resetBlock_modeR (s : State) : (resetBlock s).modeR = 0 := rfl
@[simp] theorem resetBlock_lenwR (s : State) : (resetBlock s).lenwR = 0 := rfl
@[simp] theorem resetBlock_chwR (s : State) : (resetBlock s).chwR = 0 := rfl
@[simp] theorem resetBlock_cnt (s : State) : (resetBlock s).cnt = 0 := rfl
@[simp] theorem resetBlock_olen (s : State) : (resetBlock s).olen = 0 := by
  simp [State.olen, resetBlock, State.resetWith]
@[simp] theorem resetBlock_buf (s : State) : (resetBlock s).buf = [] := rfl
@[simp] theorem resetBlock_stopR (s : State) : (resetBlock s).stopR = .none := rfl
@[simp] theorem resetBlock_fcauseR (s : State) : (resetBlock s).fcauseR = .none := rfl
@[simp] theorem resetBlock_stream (s : State) : (resetBlock s).stream = s.stream := rfl
@[simp] theorem resetBlock_off (s : State) : (resetBlock s).off = s.off := rfl
@[simp] theorem resetBlock_ports_rst (s : State) : (resetBlock s).ports.rst = s.ports.rst := rfl
@[simp] theorem resetBlock_ports_start (s : State) : (resetBlock s).ports.start = s.ports.start := rfl
@[simp] theorem resetBlock_ports_verIn (s : State) : (resetBlock s).ports.verIn = s.ports.verIn := rfl

/-! ## startDecode: START (41_segment_dispatch rule R68). -/

@[simp] theorem startDecode_params (s : State) : (startDecode s).params = s.params := rfl
@[simp] theorem startDecode_st (s : State) : (startDecode s).st = .mode := rfl
@[simp] theorem startDecode_verR (s : State) : (startDecode s).verR = s.ports.verIn := rfl
@[simp] theorem startDecode_modeR (s : State) : (startDecode s).modeR = s.modeR := rfl
@[simp] theorem startDecode_lenwR (s : State) : (startDecode s).lenwR = s.lenwR := rfl
@[simp] theorem startDecode_chwR (s : State) : (startDecode s).chwR = s.chwR := rfl
@[simp] theorem startDecode_cnt (s : State) : (startDecode s).cnt = 0 := rfl
@[simp] theorem startDecode_olen (s : State) : (startDecode s).olen = 0 := by
  simp [State.olen, startDecode]
@[simp] theorem startDecode_buf (s : State) : (startDecode s).buf = s.buf := rfl
@[simp] theorem startDecode_stopR (s : State) : (startDecode s).stopR = .none := rfl
@[simp] theorem startDecode_fcauseR (s : State) : (startDecode s).fcauseR = .none := rfl
@[simp] theorem startDecode_stream (s : State) : (startDecode s).stream = s.stream := rfl
@[simp] theorem startDecode_off (s : State) : (startDecode s).off = s.off := rfl
@[simp] theorem startDecode_ports_rst (s : State) : (startDecode s).ports.rst = s.ports.rst := rfl
@[simp] theorem startDecode_ports_start (s : State) : (startDecode s).ports.start = s.ports.start := rfl
@[simp] theorem startDecode_ports_verIn (s : State) : (startDecode s).ports.verIn = s.ports.verIn := rfl

/-! ## noBits: MODE, NO BITS (41_segment_dispatch rule R70). -/

@[simp] theorem noBits_params (s : State) : (noBits s).params = s.params := rfl
@[simp] theorem noBits_st (s : State) : (noBits s).st = .done := rfl
@[simp] theorem noBits_verR (s : State) : (noBits s).verR = s.verR := rfl
@[simp] theorem noBits_modeR (s : State) : (noBits s).modeR = s.modeR := rfl
@[simp] theorem noBits_lenwR (s : State) : (noBits s).lenwR = s.lenwR := rfl
@[simp] theorem noBits_chwR (s : State) : (noBits s).chwR = s.chwR := rfl
@[simp] theorem noBits_cnt (s : State) : (noBits s).cnt = s.cnt := rfl
@[simp] theorem noBits_olen (s : State) : (noBits s).olen = s.olen := rfl
@[simp] theorem noBits_buf (s : State) : (noBits s).buf = s.buf := rfl
@[simp] theorem noBits_stopR (s : State) : (noBits s).stopR = .noBits := rfl
@[simp] theorem noBits_fcauseR (s : State) : (noBits s).fcauseR = s.fcauseR := rfl
@[simp] theorem noBits_stream (s : State) : (noBits s).stream = s.stream := rfl
@[simp] theorem noBits_off (s : State) : (noBits s).off = s.off := rfl
@[simp] theorem noBits_ports_rst (s : State) : (noBits s).ports.rst = s.ports.rst := rfl
@[simp] theorem noBits_ports_start (s : State) : (noBits s).ports.start = s.ports.start := rfl
@[simp] theorem noBits_ports_verIn (s : State) : (noBits s).ports.verIn = s.ports.verIn := rfl

/-! ## lenRead: LEN READ (42_byte_segment rule R88). -/

@[simp] theorem lenRead_params (s : State) : (lenRead s).params = s.params := rfl
@[simp] theorem lenRead_st (s : State) : (lenRead s).st = if countField s = 0 then .mode else .char := rfl
@[simp] theorem lenRead_verR (s : State) : (lenRead s).verR = s.verR := rfl
@[simp] theorem lenRead_modeR (s : State) : (lenRead s).modeR = s.modeR := rfl
@[simp] theorem lenRead_lenwR (s : State) : (lenRead s).lenwR = s.lenwR := rfl
@[simp] theorem lenRead_chwR (s : State) : (lenRead s).chwR = s.chwR := rfl
@[simp] theorem lenRead_cnt (s : State) : (lenRead s).cnt = BitVec.ofNat 16 (countField s) := rfl
@[simp] theorem lenRead_olen (s : State) : (lenRead s).olen = s.olen := rfl
@[simp] theorem lenRead_buf (s : State) : (lenRead s).buf = s.buf := rfl
@[simp] theorem lenRead_stopR (s : State) : (lenRead s).stopR = s.stopR := rfl
@[simp] theorem lenRead_fcauseR (s : State) : (lenRead s).fcauseR = s.fcauseR := rfl
@[simp] theorem lenRead_stream (s : State) : (lenRead s).stream = s.stream := rfl
@[simp] theorem lenRead_off (s : State) : (lenRead s).off = s.off + lenWidth s := rfl
@[simp] theorem lenRead_ports_rst (s : State) : (lenRead s).ports.rst = s.ports.rst := rfl
@[simp] theorem lenRead_ports_start (s : State) : (lenRead s).ports.start = s.ports.start := rfl
@[simp] theorem lenRead_ports_verIn (s : State) : (lenRead s).ports.verIn = s.ports.verIn := rfl

/-! ## charAppend: CHAR APPEND (42_byte_segment rule R91). -/

@[simp] theorem charAppend_params (s : State) : (charAppend s).params = s.params := rfl
@[simp] theorem charAppend_st (s : State) : (charAppend s).st = if s.cnt - 1 = 0 then .mode else .char := rfl
@[simp] theorem charAppend_verR (s : State) : (charAppend s).verR = s.verR := rfl
@[simp] theorem charAppend_modeR (s : State) : (charAppend s).modeR = s.modeR := rfl
@[simp] theorem charAppend_lenwR (s : State) : (charAppend s).lenwR = s.lenwR := rfl
@[simp] theorem charAppend_chwR (s : State) : (charAppend s).chwR = s.chwR := rfl
@[simp] theorem charAppend_cnt (s : State) : (charAppend s).cnt = s.cnt - 1 := rfl
@[simp] theorem charAppend_olen (s : State) : (charAppend s).olen = (s.olen + 1) % 2 ^ olenW s.params := by
  simp [State.olen, charAppend, append, takeAdvance]
@[simp] theorem charAppend_buf (s : State) : (charAppend s).buf = s.buf.write s.olen (charField s) := rfl
@[simp] theorem charAppend_stopR (s : State) : (charAppend s).stopR = s.stopR := rfl
@[simp] theorem charAppend_fcauseR (s : State) : (charAppend s).fcauseR = s.fcauseR := rfl
@[simp] theorem charAppend_stream (s : State) : (charAppend s).stream = s.stream := rfl
@[simp] theorem charAppend_off (s : State) : (charAppend s).off = s.off + charWidth s := rfl
@[simp] theorem charAppend_ports_rst (s : State) : (charAppend s).ports.rst = s.ports.rst := rfl
@[simp] theorem charAppend_ports_start (s : State) : (charAppend s).ports.start = s.ports.start := rfl
@[simp] theorem charAppend_ports_verIn (s : State) : (charAppend s).ports.verIn = s.ports.verIn := rfl

theorem charAppend_olen_of_room (s : State) (h : s.olen < s.params.bufCap) : (charAppend s).olen = s.olen + 1 := by
  rw [charAppend_olen, Nat.mod_eq_of_lt (olen_succ_lt s h)]

/-! ## The host's move: it leaves the block's registers and the parameters, and outside IDLE the cursor too. -/

@[simp] theorem present_params (c : Option Cursor) (s : State) : (present c s).params = s.params := rfl
@[simp] theorem present_st (c : Option Cursor) (s : State) : (present c s).st = s.st := rfl
@[simp] theorem present_verR (c : Option Cursor) (s : State) : (present c s).verR = s.verR := rfl
@[simp] theorem present_modeR (c : Option Cursor) (s : State) : (present c s).modeR = s.modeR := rfl
@[simp] theorem present_lenwR (c : Option Cursor) (s : State) : (present c s).lenwR = s.lenwR := rfl
@[simp] theorem present_chwR (c : Option Cursor) (s : State) : (present c s).chwR = s.chwR := rfl
@[simp] theorem present_cnt (c : Option Cursor) (s : State) : (present c s).cnt = s.cnt := rfl
@[simp] theorem present_olen (c : Option Cursor) (s : State) : (present c s).olen = s.olen := rfl
@[simp] theorem present_buf (c : Option Cursor) (s : State) : (present c s).buf = s.buf := rfl
@[simp] theorem present_stopR (c : Option Cursor) (s : State) : (present c s).stopR = s.stopR := rfl
@[simp] theorem present_fcauseR (c : Option Cursor) (s : State) : (present c s).fcauseR = s.fcauseR := rfl
@[simp] theorem present_ports_rst (c : Option Cursor) (s : State) : (present c s).ports.rst = s.ports.rst := rfl
@[simp] theorem present_ports_start (c : Option Cursor) (s : State) : (present c s).ports.start = s.ports.start := rfl
@[simp] theorem present_ports_verIn (c : Option Cursor) (s : State) : (present c s).ports.verIn = s.ports.verIn := rfl

@[simp] theorem hostClock_params (s : State) : (hostClock s).params = s.params := rfl
@[simp] theorem hostClock_st (s : State) : (hostClock s).st = s.st := rfl
@[simp] theorem hostClock_verR (s : State) : (hostClock s).verR = s.verR := rfl
@[simp] theorem hostClock_modeR (s : State) : (hostClock s).modeR = s.modeR := rfl
@[simp] theorem hostClock_lenwR (s : State) : (hostClock s).lenwR = s.lenwR := rfl
@[simp] theorem hostClock_chwR (s : State) : (hostClock s).chwR = s.chwR := rfl
@[simp] theorem hostClock_cnt (s : State) : (hostClock s).cnt = s.cnt := rfl
@[simp] theorem hostClock_olen (s : State) : (hostClock s).olen = s.olen := rfl
@[simp] theorem hostClock_buf (s : State) : (hostClock s).buf = s.buf := rfl
@[simp] theorem hostClock_stopR (s : State) : (hostClock s).stopR = s.stopR := rfl
@[simp] theorem hostClock_fcauseR (s : State) : (hostClock s).fcauseR = s.fcauseR := rfl

theorem acceptCursor_of_not_idle (c : Option Cursor) (s : State) (h : s.st ≠ .idle) :
    acceptCursor c s = { bits := s.stream, off := s.off } := by
  cases c <;> simp [acceptCursor, h]

theorem present_of_not_idle (c : Option Cursor) (s : State) (h : s.st ≠ .idle) : present c s = s := by
  rw [present, acceptCursor_of_not_idle c s h]

theorem present_none (s : State) : present none s = s := rfl

theorem hostClock_nil (s : State) (h : s.script = []) : hostClock s = s := by
  cases s; simp only at h; subst h; rfl

/-- Outside IDLE the host's move is the next levels and nothing else. -/
theorem hostClock_of_not_idle (s : State) (h : s.st ≠ .idle) :
    hostClock s = { s with ports := nextPorts s, script := s.script.tail } :=
  present_of_not_idle (presented s) { s with ports := nextPorts s, script := s.script.tail } h

theorem hostClock_stream (s : State) (h : s.st ≠ .idle) : (hostClock s).stream = s.stream := by
  rw [hostClock_of_not_idle s h]

theorem hostClock_off (s : State) (h : s.st ≠ .idle) : (hostClock s).off = s.off := by
  rw [hostClock_of_not_idle s h]

/-! ## `OLEN` as a number (10_state rule R21). -/

@[simp] theorem State.olen_mk (params : Params) (st : Fsm) (verR : BitVec 6) (modeR : Code) (lenwR : BitVec 5)
    (chwR : BitVec 4) (cnt : BitVec 16) (olenR : BitVec (olenW params)) (buf : Memory) (stopR : StopReason)
    (fcauseR : FaultCause) (stream : Bits) (off : Nat) (ports : Ports params) (script : List (HostMove params)) :
    (State.mk params st verR modeR lenwR chwR cnt olenR buf stopR fcauseR stream off ports script).olen = olenR.toNat := rfl

@[simp] theorem State.olenR_toNat (s : State) : s.olenR.toNat = s.olen := rfl

end Sys2Proof.Machine
end

