-- ==== Sys2Proof/Laws/Step.lean ====
section
/-! SUPPORT. What each shared operation and each step can do, said once: the forms an instruction, a MODE step and a clock
take, for later proofs to cite. -/

namespace Sys2Proof.Machine

@[simp] theorem onNext_next (f : State → State) (s : State) : onNext f (.next s) = .next (f s) := rfl

theorem stopOnIndicator_eq (i : Instr) (r : StopReason) (s : State) :
    stopOnIndicator i r s = .next (stopWith r (takeIndicator i s)) := rfl

/-! ## The ROM -/

theorem tierOfCode_tierCode (t : Tier) : tierOfCode (tierCode t) = t := by cases t <;> rfl

theorem extract_code (c : Code) (t : BitVec 2) : (c ++ t).extractLsb' 2 4 = c := by
  revert c t; decide

theorem extract_tier (c : Code) (t : BitVec 2) : (c ++ t).extractLsb' 0 2 = t := by
  revert c t; decide

/-- The ROM word at a code and tier (40_field_width_rom rule R65). -/
theorem rom_at (sa : SaCode) (c : Code) (t : Tier) :
    rom sa (c ++ tierCode t) = match modeFromCode sa c with
      | some m => romWordOf (lengthFieldBits m t) (perCharacterBits m)
      | none => 0 := by
  rw [rom, extract_code, extract_tier]
  cases t <;> rfl

theorem byte_code (sa : SaCode) : encode sa .byte = 0b0100 := by cases sa <;> rfl

theorem endMsg_code (sa : SaCode) : encode sa .endMsg = 0b0000 := by cases sa <;> rfl

theorem num_code (sa : SaCode) : encode sa .num = 0b0001 := by cases sa <;> rfl

theorem sa_code (sa : SaCode) : encode sa .sa = saBits sa := rfl

theorem modeFromCode_byte (sa : SaCode) : modeFromCode sa 0b0100 = some .byte := by cases sa <;> rfl

theorem romOperand_byte (s : State) :
    romOperand (encode s.params.saCode .byte) s = romWordOf (lengthFieldBits .byte (tier s.verR)) (some 8) := by
  rw [romOperand, byte_code, rom_at, modeFromCode_byte]; rfl

/-- BYTE by tier (41_segment_dispatch rule R76): the latched widths at a valid tier, BAD_VERSION at NONE. -/
theorem execByte_eq (s : State) :
    execByte s = .next (match tier s.verR with
      | .none => stopWith .badVersion (takeIndicator .byte s)
      | .small => latchWidths .byte 8 8 s
      | .medium | .large => latchWidths .byte 16 8 s) := by
  simp only [execByte, romOperand_byte]
  cases tier s.verR <;> rfl

/-- The version bands of a BYTE (rules R59, R62). -/
theorem tier_small_iff (v : BitVec 6) : tier v = .small ↔ 1 ≤ v.toNat ∧ v.toNat ≤ 9 := by
  revert v; decide

theorem tier_none_iff (v : BitVec 6) : tier v = .none ↔ v.toNat = 0 ∨ 41 ≤ v.toNat := by
  revert v; decide

theorem byte_width_cases (t : Tier) (w : Nat) (h : lengthFieldBits .byte t = some w) :
    (t = .small ∧ w = 8) ∨ ((t = .medium ∨ t = .large) ∧ w = 16) := by
  cases t <;> simp_all [lengthFieldBits]

/-! ## Instructions -/

/-- Every instruction answers a next state, of one of three forms: a stop, SA, or a BYTE that goes on to LEN. -/
theorem exec_cases (i : Instr) (s : State) :
    (∃ r, r ≠ .none ∧ exec i s = .next (stopWith r (takeIndicator i s))) ∨
    (i = .sa ∧ exec i s = .next (skipIndicator .sa s)) ∨
    (i = .byte ∧ ∃ w : BitVec 5, lengthFieldBits .byte (tier s.verR) = some w.toNat ∧ (w = 8 ∨ w = 16) ∧
      exec i s = .next (latchWidths .byte w 8 s)) := by
  cases i with
  | sa => exact .inr (.inl ⟨rfl, rfl⟩)
  | byte =>
    simp only [exec, execByte_eq]
    cases ht : tier s.verR with
    | none => exact .inl ⟨.badVersion, by simp, rfl⟩
    | small => exact .inr (.inr ⟨trivial, 8, by simp [lengthFieldBits], .inl rfl, rfl⟩)
    | medium => exact .inr (.inr ⟨trivial, 16, by simp [lengthFieldBits], .inr rfl, rfl⟩)
    | large => exact .inr (.inr ⟨trivial, 16, by simp [lengthFieldBits], .inr rfl, rfl⟩)
  | _ => exact .inl ⟨_, by simp, rfl⟩

/-! ## The cursor and the fetch -/

theorem avail_iff (n : Nat) (s : State) : avail n s = true ↔ s.off + n ≤ s.stream.length := by simp [avail]

theorem avail_false_iff (n : Nat) (s : State) : avail n s = false ↔ s.stream.length < s.off + n := by
  simp only [avail, decide_eq_false_iff_not]; omega

theorem bufFull_iff (s : State) : bufFull s = true ↔ s.params.bufCap ≤ s.olen := by simp [bufFull]

theorem bufFull_false_iff (s : State) : bufFull s = false ↔ s.olen < s.params.bufCap := by
  simp only [bufFull, decide_eq_false_iff_not]; omega

theorem remaining_eq (s : State) : remaining s = (s.stream.drop s.off).length := by simp [remaining]

theorem fetch_of_avail (s : State) (h : s.off + 4 ≤ s.stream.length) :
    fetch s = .ok (decodeCode s.params.saCode (BitVec.ofNat 4 (takeValue 4 s)), s.stream.drop (s.off + 4)) := by
  rw [fetch, decodeBits_of_four_le _ _ (by simp; omega), takeValue, List.drop_drop]

theorem fetch_of_not_avail (s : State) (h : s.stream.length < s.off + 4) : fetch s = .error .fewerThanFourBits := by
  rw [fetch, decodeBits_of_lt_four _ _ (by simp; omega)]

theorem takeValue_lt (n : Nat) (s : State) (h : s.off + n ≤ s.stream.length) : takeValue n s < 2 ^ n := by
  have hl : ((s.stream.drop s.off).take n).length = n := by simp; omega
  have := natOfBits_lt ((s.stream.drop s.off).take n)
  rwa [hl] at this

/-- The indicator `exec` writes to MODE_R is the four bits taken (rule R71). -/
theorem encode_fetched (s : State) :
    encode s.params.saCode (decodeCode s.params.saCode (BitVec.ofNat 4 (takeValue 4 s))) = BitVec.ofNat 4 (takeValue 4 s) :=
  encode_decodeCode _ _

/-! ## One clock -/

theorem modeStep_of_avail (s : State) (h : s.off + 4 ≤ s.stream.length) :
    modeStep s = exec (decodeCode s.params.saCode (BitVec.ofNat 4 (takeValue 4 s))) s := by
  rw [modeStep, fetch_of_avail s h]

theorem modeStep_of_not_avail (s : State) (h : s.stream.length < s.off + 4) : modeStep s = .next (noBits s) := by
  rw [modeStep, fetch_of_not_avail s h]

theorem step_of_reset (s : State) (h : s.ports.rst = true) : step s = .next (hostClock (resetBlock s)) := by
  simp [step, clockEdge, h]

theorem step_of_run (s : State) (h : s.ports.rst = false) : step s = onNext hostClock (blockStep s) := by
  simp [step, clockEdge, h]

/-- Everything a clock with `rst = 0` can do: one disjunct a rule, with its guard, and the state before the host's move. -/
theorem blockStep_cases (s : State) : ∃ t, blockStep s = .next t ∧
    ((s.st = .idle ∧ s.ports.start = true ∧ t = startDecode s) ∨
     (s.st = .idle ∧ s.ports.start = false ∧ t = s) ∨
     (s.st = .mode ∧ s.stream.length < s.off + 4 ∧ t = noBits s) ∨
     (s.st = .mode ∧ s.off + 4 ≤ s.stream.length ∧
       exec (decodeCode s.params.saCode (BitVec.ofNat 4 (takeValue 4 s))) s = .next t) ∨
     (s.st = .len ∧ s.stream.length < s.off + lenWidth s ∧ t = raiseFault .underrunLen s) ∨
     (s.st = .len ∧ s.off + lenWidth s ≤ s.stream.length ∧ t = lenRead s) ∨
     (s.st = .char ∧ s.stream.length < s.off + charWidth s ∧ t = raiseFault .underrunChar s) ∨
     (s.st = .char ∧ s.off + charWidth s ≤ s.stream.length ∧ s.params.bufCap ≤ s.olen ∧ t = raiseFault .overflow s) ∨
     (s.st = .char ∧ s.off + charWidth s ≤ s.stream.length ∧ s.olen < s.params.bufCap ∧ t = charAppend s) ∨
     ((s.st = .done ∨ s.st = .fault) ∧ t = s)) := by
  cases hst : s.st with
  | idle =>
    cases hs : s.ports.start with
    | true => exact ⟨_, by simp only [blockStep, hst]; rfl, by simp [idleStep, hs]⟩
    | false => exact ⟨_, by simp only [blockStep, hst]; rfl, by simp [idleStep, hs]⟩
  | mode =>
    by_cases h : s.off + 4 ≤ s.stream.length
    · rcases exec_cases (decodeCode s.params.saCode (BitVec.ofNat 4 (takeValue 4 s))) s with
        ⟨r, _, e⟩ | ⟨_, e⟩ | ⟨_, w, _, _, e⟩ <;>
      exact ⟨_, by simp only [blockStep, hst, modeStep_of_avail s h]; exact e, by simp [h, e]⟩
    · exact ⟨_, by simp only [blockStep, hst]; exact modeStep_of_not_avail s (by omega), by simp; omega⟩
  | len =>
    by_cases h : s.off + lenWidth s ≤ s.stream.length
    · exact ⟨_, by simp only [blockStep, hst]; rfl, by simp [lenStep, avail, h]⟩
    · exact ⟨_, by simp only [blockStep, hst]; rfl, by simp [lenStep, avail, h]; omega⟩
  | char =>
    by_cases h : s.off + charWidth s ≤ s.stream.length
    · by_cases hb : s.params.bufCap ≤ s.olen
      · exact ⟨_, by simp only [blockStep, hst]; rfl, by simp [charStep, avail, bufFull, h, hb]⟩
      · exact ⟨_, by simp only [blockStep, hst]; rfl, by simp [charStep, avail, bufFull, h, hb]; omega⟩
    · exact ⟨_, by simp only [blockStep, hst]; rfl, by simp [charStep, avail, h]; omega⟩
  | done => exact ⟨_, by simp only [blockStep, hst]; rfl, by simp [doneHold]⟩
  | fault => exact ⟨_, by simp only [blockStep, hst]; rfl, by simp [faultHold]⟩

/-- Everything a step can do: a reset, or a clock of the block, then the host's move. -/
theorem step_cases (s t : State) (h : step s = .next t) :
    (s.ports.rst = true ∧ t = hostClock (resetBlock s)) ∨
    (s.ports.rst = false ∧ ∃ u, blockStep s = .next u ∧ t = hostClock u) := by
  cases hr : s.ports.rst with
  | true => rw [step_of_reset s hr] at h; cases h; exact .inl ⟨rfl, rfl⟩
  | false =>
    obtain ⟨u, hu, _⟩ := blockStep_cases s
    rw [step_of_run s hr, hu] at h; cases h; exact .inr ⟨rfl, u, hu, rfl⟩

/-- When a clock performs a Take and of what width (10_state rules R29, R30). -/
theorem curN_eq_some (s : State) (n : Nat) (h : curN s = some n) :
    s.ports.rst = false ∧ s.off + n ≤ s.stream.length ∧
    ((s.st = .mode ∧ n = 4) ∨ (s.st = .len ∧ n = lenWidth s) ∨
      (s.st = .char ∧ n = charWidth s ∧ s.olen < s.params.bufCap)) := by
  unfold curN at h
  cases hr : s.ports.rst with
  | true => simp [hr] at h
  | false =>
    simp only [hr] at h
    cases hst : s.st with
    | idle | done | fault => simp [hst] at h
    | mode =>
      simp only [hst, Bool.false_eq_true, if_false, Option.ite_none_right_eq_some, avail_iff, Option.some.injEq] at h
      obtain ⟨h, rfl⟩ := h
      exact ⟨rfl, h, by simp⟩
    | len =>
      simp only [hst, Bool.false_eq_true, if_false, Option.ite_none_right_eq_some, avail_iff, Option.some.injEq] at h
      obtain ⟨h, rfl⟩ := h
      exact ⟨rfl, h, by simp⟩
    | char =>
      simp only [hst, Bool.false_eq_true, if_false, Option.ite_none_right_eq_some, Bool.and_eq_true, avail_iff,
        Bool.not_eq_true', bufFull_false_iff, Option.some.injEq] at h
      obtain ⟨⟨h, hb⟩, rfl⟩ := h
      exact ⟨rfl, h, by simp [hb]⟩

/-! ## The host's inputs outside IDLE -/

/-- The state with the host's inputs replaced. -/
def withHost (s : State) (p : Ports s.params) (q : List (HostMove s.params)) : State := { s with ports := p, script := q }

/-- Two states alike but for the host's inputs are one state with its inputs replaced. -/
theorem exists_withHost (s t : State) (h : blockPart s = blockPart t) : ∃ p q, t = withHost s p q := by
  cases s; cases t
  simp only [blockPart, State.mk.injEq] at h
  obtain ⟨rfl, rfl, rfl, rfl, rfl, rfl, rfl, h7, rfl, rfl, rfl, rfl, rfl, _⟩ := h
  cases h7
  exact ⟨_, _, rfl⟩

theorem blockPart_withHost (s : State) (p : Ports s.params) (q : List (HostMove s.params)) :
    blockPart (withHost s p q) = blockPart s := rfl

theorem blockPart_hostClock (s : State) (h : s.st ≠ .idle) : blockPart (hostClock s) = blockPart s := by
  rw [hostClock_of_not_idle s h]; rfl

/-- No instruction reads the host's inputs. -/
theorem exec_withHost (i : Instr) (s : State) (p : Ports s.params) (q : List (HostMove s.params)) :
    ∃ u v, exec i s = .next u ∧ exec i (withHost s p q) = .next v ∧ blockPart u = blockPart v := by
  cases i with
  | byte =>
    simp only [exec, execByte_eq]
    have e : (withHost s p q).verR = s.verR := rfl
    rw [e]
    cases tier s.verR <;> exact ⟨_, _, rfl, rfl, rfl⟩
  | _ => exact ⟨_, _, rfl, rfl, rfl⟩

/-- Outside IDLE no step of the block reads the host's inputs (41_segment_dispatch rule R86). -/
theorem blockStep_of_blockPart (s t : State) (h : s.st ≠ .idle) (hb : blockPart s = blockPart t) :
    ∃ u v, blockStep s = .next u ∧ blockStep t = .next v ∧ blockPart u = blockPart v := by
  obtain ⟨p, q, rfl⟩ := exists_withHost s t hb
  have e : (withHost s p q).st = s.st := rfl
  cases hst : s.st with
  | idle => exact absurd hst h
  | mode =>
    have ef : fetch (withHost s p q) = fetch s := rfl
    simp only [blockStep, e, hst, modeStep, ef]
    match fetch s with
    | .ok (i, _) => exact exec_withHost i s p q
    | .error .fewerThanFourBits => exact ⟨_, _, rfl, rfl, rfl⟩
  | len =>
    have ea : avail (lenWidth (withHost s p q)) (withHost s p q) = avail (lenWidth s) s := rfl
    simp only [blockStep, e, hst, lenStep, ea]
    cases avail (lenWidth s) s <;> exact ⟨_, _, rfl, rfl, rfl⟩
  | char =>
    have ea : avail (charWidth (withHost s p q)) (withHost s p q) = avail (charWidth s) s := rfl
    have eb : bufFull (withHost s p q) = bufFull s := rfl
    simp only [blockStep, e, hst, charStep, ea, eb]
    cases avail (charWidth s) s <;> cases bufFull s <;> exact ⟨_, _, rfl, rfl, rfl⟩
  | done | fault => simp only [blockStep, e, hst]; exact ⟨_, _, rfl, rfl, rfl⟩

/-- A clock with `rst = 0` never returns to IDLE. -/
theorem blockStep_not_idle (s t : State) (h : s.st ≠ .idle) (hs : blockStep s = .next t) : t.st ≠ .idle := by
  obtain ⟨t', ht', hc⟩ := blockStep_cases s
  rw [hs] at ht'; cases ht'
  rcases hc with ⟨h1, _⟩ | ⟨h1, _⟩ | ⟨_, _, rfl⟩ | ⟨_, _, he⟩ | ⟨_, _, rfl⟩ | ⟨_, _, rfl⟩ | ⟨_, _, rfl⟩ |
    ⟨_, _, _, rfl⟩ | ⟨_, _, _, rfl⟩ | ⟨_, rfl⟩
  · exact absurd h1 h
  · exact absurd h1 h
  · simp
  · rcases exec_cases (decodeCode s.params.saCode (BitVec.ofNat 4 (takeValue 4 s))) s with
      ⟨r, _, e⟩ | ⟨_, e⟩ | ⟨_, w, _, _, e⟩ <;> rw [e] at he <;> cases he <;> simp
  · simp
  · rw [lenRead_st]; split <;> simp
  · simp
  · simp
  · rw [charAppend_st]; split <;> simp
  · exact h

/-- What a clock with `rst = 0` leaves alone: the parameters, the stream and the host's inputs. -/
theorem blockStep_frame (s t : State) (hs : blockStep s = .next t) :
    ∃ n : BitVec (olenW s.params), t = { s with
      st := t.st, verR := t.verR, modeR := t.modeR, lenwR := t.lenwR, chwR := t.chwR, cnt := t.cnt, olenR := n,
      buf := t.buf, stopR := t.stopR, fcauseR := t.fcauseR, off := t.off } := by
  obtain ⟨t', ht', hc⟩ := blockStep_cases s
  rw [hs] at ht'; cases ht'
  rcases hc with ⟨_, _, rfl⟩ | ⟨_, _, rfl⟩ | ⟨_, _, rfl⟩ | ⟨_, _, he⟩ | ⟨_, _, rfl⟩ | ⟨_, _, rfl⟩ | ⟨_, _, rfl⟩ |
    ⟨_, _, _, rfl⟩ | ⟨_, _, _, rfl⟩ | ⟨_, rfl⟩
  case inr.inr.inr.inl =>
    rcases exec_cases (decodeCode s.params.saCode (BitVec.ofNat 4 (takeValue 4 s))) s with
      ⟨r, _, e⟩ | ⟨_, e⟩ | ⟨_, w, _, _, e⟩ <;> rw [e] at he <;> cases he <;> exact ⟨_, rfl⟩
  all_goals exact ⟨_, rfl⟩

theorem blockStep_params (s t : State) (hs : blockStep s = .next t) : t.params = s.params := by
  obtain ⟨n, h⟩ := blockStep_frame s t hs
  exact (congrArg State.params h).trans rfl

theorem blockStep_stream (s t : State) (hs : blockStep s = .next t) : t.stream = s.stream := by
  obtain ⟨n, h⟩ := blockStep_frame s t hs
  exact (congrArg State.stream h).trans rfl

/-- A clock with `rst = 0` leaves the host's inputs, so whether they reset. -/
theorem blockStep_noReset (s t : State) (hs : blockStep s = .next t) : noReset t = noReset s := by
  obtain ⟨n, h⟩ := blockStep_frame s t hs
  exact (congrArg noReset h).trans rfl

/-! ## Runs -/

/-- `run` is the host's `Core.run` on this machine. -/
theorem run_eq_core (n : Nat) (s : State) : run n s = Sys2Proof.core.run n s := by
  induction n generalizing s with
  | zero => rfl
  | succ n ih =>
    simp only [run, Host.Core.run]
    have e : Sys2Proof.core.step s = step s := rfl
    rw [e]
    cases step s with
    | next t => exact ih t
    | fault r => rfl
    | refused r => rfl

@[simp] theorem run_zero (s : State) : run 0 s = .next s := rfl

theorem run_succ (n : Nat) (s t : State) (h : step s = .next t) : run (n + 1) s = run n t := by
  simp [run, h]

/-- A run of `a + b` steps is `a` steps, then `b` from where they lead. -/
theorem run_add (a b : Nat) (s t : State) (h : run a s = .next t) : run (a + b) s = run b t := by
  induction a generalizing s with
  | zero => cases h; rw [Nat.zero_add]
  | succ a ih =>
    rw [Nat.succ_add]
    simp only [run] at h ⊢
    cases hs : step s with
    | next u => rw [hs] at h; exact ih u h
    | fault r => rw [hs] at h; cases h
    | refused r => rw [hs] at h; cases h

/-- A property every step keeps holds along a run. -/
theorem run_keeps (P : State → Prop) (h : ∀ s t, P s → step s = .next t → P t) (n : Nat) (s t : State) (hs : P s)
    (hr : run n s = .next t) : P t := by
  induction n generalizing s with
  | zero => cases hr; exact hs
  | succ n ih =>
    simp only [run] at hr
    cases he : step s with
    | next u => rw [he] at hr; exact ih u (h s u hs he) hr
    | fault r => rw [he] at hr; cases hr
    | refused r => rw [he] at hr; cases hr

theorem noReset_rst (s : State) (h : noReset s = true) : s.ports.rst = false := by
  simp only [noReset, Bool.and_eq_true, Bool.not_eq_true'] at h; exact h.1

/-- A host that never resets goes on not resetting. -/
theorem noReset_hostClock (s : State) (h : noReset s = true) : noReset (hostClock s) = true := by
  have e : noReset (hostClock s) = (!(nextPorts s).rst && s.script.tail.all (fun m => !m.ports.rst)) := rfl
  simp only [noReset, Bool.and_eq_true] at h
  rw [e, nextPorts]
  cases hq : s.script with
  | nil => simp [h.1]
  | cons m ms => simpa [hq] using h.2

theorem noReset_step (s t : State) (h : noReset s = true) (hs : step s = .next t) : noReset t = true := by
  rcases step_cases s t hs with ⟨h1, _⟩ | ⟨_, u, hu, rfl⟩
  · rw [noReset_rst s h] at h1; cases h1
  · exact noReset_hostClock u ((blockStep_noReset s u hu).trans h)

end Sys2Proof.Machine
end

