-- ==== Sys2Proof/Laws/Segment.lean ====
section
/-! SUPPORT. Runs inside a byte segment (42_byte_segment rules R87 to R92), step by step and for the whole of its data. -/

namespace Sys2Proof.Machine

theorem readBytes_bits (bs : List Byte) (rest : Bits) :
    readBytes bs.length (bitsOfBytes bs ++ rest) = some (bs, rest) := by
  induction bs with
  | nil => rfl
  | cons b bs ih =>
    have hb : (bitsOfNat 8 b.toNat).length = 8 := length_bitsOfNat _ _
    rw [bitsOfBytes_cons, List.append_assoc, List.length_cons, readBytes, if_neg (by simp)]
    rw [List.drop_left' hb, List.take_left' hb, ih, natOfBits_byte]; rfl

theorem readBytes_short (n : Nat) (bs : Bits) (h : bs.length < 8 * n) : readBytes n bs = none := by
  induction n generalizing bs with
  | zero => omega
  | succ n ih =>
    rw [readBytes]
    split
    · rfl
    · rw [ih _ (by simp; omega)]; rfl

theorem bitsOfBytes_at (bs : List Byte) (rest : Bits) (k : Nat) (h : k < bs.length) :
    some (BitVec.ofNat 8 (natOfBits (((bitsOfBytes bs ++ rest).drop (8 * k)).take 8))) = bs[k]? := by
  induction bs generalizing k with
  | nil => simp at h
  | cons b bs ih =>
    have hb : (bitsOfNat 8 b.toNat).length = 8 := length_bitsOfNat _ _
    rw [bitsOfBytes_cons, List.append_assoc]
    cases k with
    | zero => simp only [Nat.mul_zero, List.drop_zero, List.take_left' hb, natOfBits_byte]; rfl
    | succ k =>
      rw [show 8 * (k + 1) = 8 + 8 * k by omega, ← List.drop_drop, List.drop_left' hb, ih k (by simpa using h)]; rfl

theorem byteSegmentBits_eq (sa : SaCode) (w n : Nat) (data : List Byte) :
    byteSegmentBits sa w n data = [false, true, false, false] ++ (bitsOfNat w n ++ bitsOfBytes data) := by
  rw [byteSegmentBits, encodeBits, byte_code, List.append_assoc]; rfl

/-- What a run of CHAR steps leaves alone. -/
structure CharFrame (s t : State) : Prop where
  params : t.params = s.params
  verR : t.verR = s.verR
  modeR : t.modeR = s.modeR
  chwR : t.chwR = s.chwR
  lenwR : t.lenwR = s.lenwR
  stopR : t.stopR = s.stopR
  stream : t.stream = s.stream

theorem char_step_ok (s : State) (hm : s.st = .char) (hr : s.ports.rst = false) (h8 : charWidth s = 8)
    (hl : s.off + 8 ≤ s.stream.length) (hb : s.olen < s.params.bufCap) :
    step s = .next (hostClock (charAppend s)) := by
  rw [step_of_run s hr]
  simp only [blockStep, hm, charStep,
    (avail_iff _ s).2 (show s.off + charWidth s ≤ _ by omega), (bufFull_false_iff s).2 hb]
  rfl

theorem char_step_under (s : State) (hm : s.st = .char) (hr : s.ports.rst = false) (h8 : charWidth s = 8)
    (hl : s.stream.length < s.off + 8) :
    step s = .next (hostClock (raiseFault .underrunChar s)) := by
  rw [step_of_run s hr]
  simp only [blockStep, hm, charStep,
    (avail_false_iff _ s).2 (show s.stream.length < s.off + charWidth s by omega)]
  rfl

theorem charField_eq (s : State) (h8 : charWidth s = 8) :
    charField s = BitVec.ofNat 8 (natOfBits ((s.stream.drop s.off).take 8)) := by
  rw [charField, takeValue, h8]

/-- The CHAR steps of one segment: with room, they read the `n` bytes and end in MODE, or starve and end in FAULT
(42_byte_segment rules R89, R91, R92). -/
theorem char_loop (n : Nat) : ∀ s : State, s.st = .char → noReset s = true → charWidth s = 8 → s.cnt.toNat = n →
    1 ≤ n →
    s.olen + min n (remaining s / 8) ≤ s.params.bufCap →
    match readBytes n (s.stream.drop s.off) with
    | some (data, rest) => ∃ t, run n s = .next t ∧ t.st = .mode ∧ noReset t = true ∧ t.off = s.off + 8 * n ∧ t.cnt = 0 ∧
        t.olen = s.olen + n ∧ t.fcauseR = s.fcauseR ∧ CharFrame s t ∧ data.length = n ∧ t.stream.drop t.off = rest ∧
        ∀ a, t.buf.read a = if s.olen ≤ a ∧ a < s.olen + n then data[a - s.olen]? else s.buf.read a
    | none => ∃ t, run (remaining s / 8 + 1) s = .next t ∧ t.st = .fault ∧ t.fcauseR = .underrunChar ∧
        t.off = s.off + 8 * (remaining s / 8) ∧
        t.olen = s.olen + remaining s / 8 ∧ remaining s / 8 < n ∧ CharFrame s t ∧
        ∀ a, t.buf.read a =
          if s.olen ≤ a ∧ a < s.olen + remaining s / 8 then
            some (BitVec.ofNat 8 (natOfBits (((s.stream.drop s.off).drop (8 * (a - s.olen))).take 8)))
          else s.buf.read a := by
  induction n with
  | zero => intro s _ _ _ _ h; omega
  | succ n ih =>
    intro s hm hn h8 hc h1 hroom
    have hr := noReset_rst s hn
    rw [readBytes]
    have hlen : (s.stream.drop s.off).length = remaining s := by simp [remaining]
    by_cases hl : remaining s < 8
    · rw [hlen, if_pos hl]
      have hz : remaining s / 8 = 0 := by omega
      have hs := char_step_under s hm hr h8 (by simp only [remaining] at hl; omega)
      refine ⟨_, by rw [hz]; exact run_succ 0 s _ hs, by simp, by simp, ?_, ?_, by omega, ?_, ?_⟩
      · rw [hostClock_off _ (by simp), hz]; simp
      · simp [hz]
      · exact ⟨by simp, by simp, by simp, by simp, by simp, by simp, by rw [hostClock_stream _ (by simp)]; simp⟩
      · intro a; rw [hz, if_neg (by omega)]; simp
    · have hl8 : s.off + 8 ≤ s.stream.length := by simp only [remaining] at hl; omega
      have hs := char_step_ok s hm hr h8 hl8 (by omega)
      rw [hlen, if_neg hl]
      have hn' := noReset_step s _ hn hs
      have hni : (charAppend s).st ≠ .idle := by rw [charAppend_st]; split <;> simp
      have hoff : (hostClock (charAppend s)).off = s.off + 8 := by rw [hostClock_off _ hni]; simp [h8]
      have hol : (hostClock (charAppend s)).olen = s.olen + 1 := charAppend_olen_of_room s (by omega)
      have hstr : (hostClock (charAppend s)).stream = s.stream := by rw [hostClock_stream _ hni]; simp
      have hcnt : (s.cnt - 1).toNat = n := by rw [BitVec.toNat_sub]; simp; omega
      have hrem : remaining (hostClock (charAppend s)) = remaining s - 8 := by simp only [remaining, hoff, hstr]; omega
      have hbuf : ∀ a, (hostClock (charAppend s)).buf.read a =
          if a = s.olen then some (BitVec.ofNat 8 (natOfBits ((s.stream.drop s.off).take 8))) else s.buf.read a := by
        intro a; rw [hostClock_buf, charAppend_buf, read_write, charField_eq s h8]
      by_cases hz : n = 0
      · subst hz
        have hcz : s.cnt - 1 = 0 := BitVec.eq_of_toNat_eq (by simpa using hcnt)
        simp only [readBytes, Option.map_some]
        refine ⟨_, run_succ 0 s _ hs, ?_, hn', ?_, ?_, hol, by simp, ?_, rfl, ?_, ?_⟩
        · simp only [hostClock_st, charAppend_st, hcz, if_true]
        · rw [hoff]
        · rw [hostClock_cnt, charAppend_cnt]; exact hcz
        · constructor <;> simp [hstr]
        · rw [hstr, hoff, List.drop_drop]
        · intro a
          rw [hbuf]
          by_cases ha : a = s.olen
          · subst ha; simp
          · rw [if_neg ha, if_neg (by omega)]
      · have hcz : s.cnt - 1 ≠ 0 := fun h => hz (by rw [← hcnt, h]; rfl)
        have hst : (hostClock (charAppend s)).st = .char := by simp only [hostClock_st, charAppend_st, hcz, if_false]
        have := ih (hostClock (charAppend s)) hst hn' (by simpa [charWidth] using h8) (by simpa using hcnt) (by omega) (by
          rw [hrem, hol]; simp only [hostClock_params, charAppend_params]; omega)
        rw [hstr, hoff, ← List.drop_drop] at this
        cases hrb : readBytes n ((s.stream.drop s.off).drop 8) with
        | some p =>
          obtain ⟨data, rest⟩ := p
          rw [hrb] at this
          simp only at this
          obtain ⟨t, ht, h1, h2, h3, h4, h5, h6, h7, h7', h8', h9⟩ := this
          simp only [Option.map_some]
          refine ⟨t, by rw [run_succ n s _ hs, ht], h1, h2, by omega, h4, ?_, by simpa using h6, ?_, by simpa using h7', h8', ?_⟩
          · rw [h5, hol]; omega
          · exact ⟨by simpa using h7.params, by simpa using h7.verR, by simpa using h7.modeR, by simpa using h7.chwR,
              by simpa using h7.lenwR, by simpa using h7.stopR, by rw [h7.stream, hstr]⟩
          · intro a
            rw [h9, hbuf]
            simp only [hol]
            by_cases ha : a = s.olen
            · subst ha; simp
            · by_cases hb : s.olen + 1 ≤ a ∧ a < s.olen + 1 + n
              · rw [if_pos hb, if_pos (by omega)]
                have : a - s.olen = (a - (s.olen + 1)) + 1 := by omega
                rw [this, List.getElem?_cons_succ]
              · rw [if_neg hb, if_neg ha, if_neg (by omega)]
        | none =>
          rw [hrb] at this
          simp only at this
          obtain ⟨t, ht, h1, h2, h3, h4, h5, h7, h9⟩ := this
          simp only [Option.map_none]
          have hd : remaining s / 8 = (remaining s - 8) / 8 + 1 := by omega
          rw [hrem] at ht h3 h4 h5 h9
          refine ⟨t, ?_, h1, h2, ?_, ?_, by omega, ?_, ?_⟩
          · rw [hd, run_succ _ s _ hs, ht]
          · omega
          · rw [h4, hol]; omega
          · exact ⟨by simpa using h7.params, by simpa using h7.verR, by simpa using h7.modeR, by simpa using h7.chwR,
              by simpa using h7.lenwR, by simpa using h7.stopR, by rw [h7.stream, hstr]⟩
          · intro a
            rw [h9, hbuf]
            simp only [hol]
            by_cases ha : a = s.olen
            · subst ha; rw [if_neg (by omega), if_pos rfl, if_pos (by omega)]; simp
            · by_cases hb : s.olen + 1 ≤ a ∧ a < s.olen + 1 + (remaining s - 8) / 8
              · rw [if_pos hb, if_pos (by omega), List.drop_drop]
                have : 8 * (a - s.olen) = 8 + 8 * (a - (s.olen + 1)) := by omega
                rw [this]
              · rw [if_neg hb, if_neg ha, if_neg (by omega)]

/-- The first two steps of a byte segment. -/
theorem byte_open (s : State) (w : Nat) (tail : Bits) (hm : s.st = .mode) (hn : noReset s = true)
    (hw : lengthFieldBits .byte (tier s.verR) = some w) (hd : s.stream.drop s.off = [false, true, false, false] ++ tail) :
    ∃ u, step s = .next u ∧ u.st = .len ∧ lenWidth u = w ∧ charWidth u = 8 ∧ noReset u = true ∧ u.off = s.off + 4 ∧
      u.stream = s.stream ∧ u.stream.drop u.off = tail ∧ u.modeR = 0b0100 ∧
      u.olen = s.olen ∧ u.buf = s.buf ∧ u.verR = s.verR ∧ u.params = s.params ∧ u.stopR = s.stopR ∧ u.fcauseR = s.fcauseR := by
  have hr := noReset_rst s hn
  have hb : ([false, true, false, false] : Bits) = encodeBits s.params.saCode .byte := by rw [encodeBits, byte_code]; rfl
  have hx : ∃ u, exec .byte s = .next u ∧ u.st = .len ∧ lenWidth u = w ∧ charWidth u = 8 ∧ u.off = s.off + 4 ∧
      u.stream = s.stream ∧ u.modeR = 0b0100 ∧ u.olen = s.olen ∧ u.buf = s.buf ∧ u.verR = s.verR ∧
      u.params = s.params ∧ u.stopR = s.stopR ∧ u.fcauseR = s.fcauseR := by
    simp only [exec, execByte_eq]
    cases ht : tier s.verR with
    | none => rw [ht] at hw; cases hw
    | small => rw [ht] at hw; cases hw; exact ⟨_, rfl, rfl, rfl, rfl, rfl, rfl, byte_code _, rfl, rfl, rfl, rfl, rfl, rfl⟩
    | medium => rw [ht] at hw; cases hw; exact ⟨_, rfl, rfl, rfl, rfl, rfl, rfl, byte_code _, rfl, rfl, rfl, rfl, rfl, rfl⟩
    | large => rw [ht] at hw; cases hw; exact ⟨_, rfl, rfl, rfl, rfl, rfl, rfl, byte_code _, rfl, rfl, rfl, rfl, rfl, rfl⟩
  obtain ⟨u, hu, a1, a2, a3, a4, a5, a6, a7, a8, a9, a10, a11, a12⟩ := hx
  have hs : step s = .next (hostClock u) := by
    rw [step_of_run s hr]
    simp only [blockStep, hm, modeStep, fetch]
    rw [hd, hb, decodeBits_encodeBits _ _ _ rfl]
    simp only [hu]; rfl
  have hni : u.st ≠ .idle := by simp [a1]
  refine ⟨_, hs, by simpa using a1, by simpa [lenWidth] using a2, by simpa [charWidth] using a3,
    noReset_step s _ hn hs, ?_, ?_, ?_, ?_⟩
  · rw [hostClock_off u hni, a4]
  · rw [hostClock_stream u hni, a5]
  · rw [hostClock_off u hni, hostClock_stream u hni, a4, a5, ← List.drop_drop, hd]; rfl
  · simp [*]

/-- LEN UNDERRUN (42_byte_segment rule R87). -/
theorem len_under (u : State) (hm : u.st = .len) (hn : noReset u = true)
    (hl : (u.stream.drop u.off).length < lenWidth u) :
    step u = .next (hostClock (raiseFault .underrunLen u)) := by
  rw [step_of_run u (noReset_rst u hn)]
  simp only [List.length_drop] at hl
  have : avail (lenWidth u) u = false := (avail_false_iff _ u).2 (by omega)
  simp only [blockStep, hm, lenStep, this]; rfl

/-- LEN READ (42_byte_segment rule R88). -/
theorem len_read (u : State) (hm : u.st = .len) (hn : noReset u = true) (w : Nat) (hw : lenWidth u = w)
    (h0 : 0 < w) (hw16 : w ≤ 16)
    (hl : w ≤ (u.stream.drop u.off).length) :
    ∃ v, step u = .next v ∧ v.st = (if natOfBits ((u.stream.drop u.off).take w) = 0 then .mode else .char) ∧
      noReset v = true ∧ v.cnt.toNat = natOfBits ((u.stream.drop u.off).take w) ∧ charWidth v = charWidth u ∧
      v.off = u.off + w ∧ v.stream = u.stream ∧ v.modeR = u.modeR ∧
      v.olen = u.olen ∧ v.buf = u.buf ∧ v.verR = u.verR ∧ v.params = u.params ∧ v.stopR = u.stopR ∧ v.fcauseR = u.fcauseR := by
  have hl' : u.off + lenWidth u ≤ u.stream.length := by simp only [List.length_drop] at hl; omega
  have hs : step u = .next (hostClock (lenRead u)) := by
    rw [step_of_run u (noReset_rst u hn)]
    have : avail (lenWidth u) u = true := (avail_iff _ u).2 hl'
    simp only [blockStep, hm, lenStep, this]; rfl
  have hni : (lenRead u).st ≠ .idle := by rw [lenRead_st]; split <;> simp
  have hc : countField u = natOfBits ((u.stream.drop u.off).take w) := by rw [countField, takeValue, hw]
  have hlt := takeValue_lt _ u hl'
  have : 2 ^ lenWidth u ≤ 2 ^ 16 := Nat.pow_le_pow_right (by omega) (by omega)
  have hlt2 : natOfBits ((u.stream.drop u.off).take w) < 2 ^ 16 := by rw [← hc, countField]; omega
  refine ⟨_, hs, by simp [hc], noReset_step u _ hn hs, ?_, by simp [charWidth], ?_, ?_, ?_⟩
  · rw [hostClock_cnt, lenRead_cnt, hc, BitVec.toNat_ofNat, Nat.mod_eq_of_lt hlt2]
  · rw [hostClock_off _ hni, lenRead_off, hw]
  · rw [hostClock_stream _ hni, lenRead_stream]
  · simp

end Sys2Proof.Machine
end

