-- ==== Sys2Proof/Tests/Slice0.lean ====
section
/-! SUPPORT. Tests: expected values are the spec's own (95_test_vectors and the examples of the rules), and for every
obligation with hypotheses a state that meets them, at the boundaries of their ranges. -/

namespace Sys2Proof.Tests

open Sys2Proof.Machine

/-! ## Helpers -/

/-- The outcome is a next state that passes `p`. -/
def nextIs (r : Result) (p : State → Bool) : Bool :=
  match r with
  | .next t => p t
  | .fault _ => false
  | .refused _ => false

/-- The outcome is a next state in `st`, with that STATUS word and that offset. -/
def lands (r : Result) (st : Fsm) (word : BitVec 12) (off : Nat) : Bool :=
  nextIs r fun t => t.st = st && status t = word && t.off = off

/-- Stream bits from a number, most significant first. -/
abbrev b (w n : Nat) : Bits := bitsOfNat w n

/-- Reset registers, room for 8 bytes and 64 stream bits. -/
def small : State := State.resetWith (p := Params.defaults 64) [] 0 Ports.low []

/-- About to fetch at version `v`. -/
def modeAt (v : BitVec 6) (bs : Bits) : State := { small with st := .mode, verR := v, stream := bs }

/-- About to read COUNT at version `v`, whose count width is `w`; `bs` follows the indicator. -/
def lenAt (v : BitVec 6) (w : BitVec 5) (bs : Bits) : State :=
  { modeAt v (b 4 0b0100 ++ bs) with st := .len, modeR := 0b0100, lenwR := w, chwR := 8, off := 4 }

/-- About to read a byte at version 1, `n` bytes to go, in a buffer of `cap` cells; `bs` follows COUNT. -/
def charAt (cap : Nat) (n : BitVec 16) (bs : Bits) : State :=
  { State.resetWith (p := { lMax := 64, bufCap := cap, saCode := .c3 }) (b 4 0b0100 ++ b 8 n.toNat ++ bs) 12 Ports.low [] with
    st := .char, verR := 1, modeR := 0b0100, lenwR := 8, chwR := 8, cnt := n }

/-- `charAt` with the byte 0x41 read already. -/
def charAfterOne (cap : Nat) (n : BitVec 16) (bs : Bits) : State :=
  { charAt cap n (b 8 0x41 ++ bs) with off := 20, olenR := 1, buf := [(0, 0x41)] }

/-- Ended in DONE with NO_BITS. -/
def doneState : State := { modeAt 1 [] with st := .done, stopR := .noBits }

/-- Ended in FAULT with UNDERRUN_LEN. -/
def faultState : State := { lenAt 1 8 [] with st := .fault, fcauseR := .underrunLen }

/-- A host that drives other inputs from now on, without `rst`. -/
def busyHost {p : Params} : HostMove p :=
  { ports := { rst := false, start := true, verIn := 15, bufRaddr := 3 }, presents := none }

/-- Ready to start at version `v` on `bs` from offset `off`. -/
def launchAt (v : BitVec 6) (off : Nat) (bs : Bits) : State :=
  { small with stream := bs, off := off, ports := { Ports.low with start := true, verIn := v } }

/-- `s` is about to fetch `bits`, then `rest`. -/
def fetches (s : State) (bits rest : Bits) : Bool :=
  s.st = .mode && !s.ports.rst && s.stream.drop s.off == bits ++ rest

/-! ## WellFormed: UNDEF is the only constructor with an operand (30_encoding rules R53, R56) -/

theorem test_wellFormed_refuses_undef_of_a_mode :
    ∀ c ∈ [(0 : Code), 1, 2, 3, 4, 5, 7, 8, 9], (Instr.undef c).wellFormed = false := by decide

theorem test_wellFormed_accepts : ∀ c ∈ [(6 : Code), 10, 11, 12, 13, 14, 15], (Instr.undef c).wellFormed = true := by
  decide

/-! ## Decoding: words bit by bit (30_encoding rule R55, opcode_table.json) -/

theorem test_word_end : decodeBits .c3 [false, false, false, false] = .ok (.endMsg, []) := rfl
theorem test_word_num : decodeBits .c3 [false, false, false, true] = .ok (.num, []) := rfl
theorem test_word_alnum : decodeBits .c3 [false, false, true, false] = .ok (.alnum, []) := rfl
theorem test_word_sa : decodeBits .c3 [false, false, true, true] = .ok (.sa, []) := rfl
theorem test_word_byte : decodeBits .c3 [false, true, false, false, true] = .ok (.byte, [true]) := rfl
theorem test_word_fnc1_1 : decodeBits .c3 [false, true, false, true] = .ok (.fnc1_1, []) := rfl
theorem test_word_undef6 : decodeBits .c3 [false, true, true, false] = .ok (.undef 6, []) := rfl
theorem test_word_eci : decodeBits .c3 [false, true, true, true] = .ok (.eci, []) := rfl
theorem test_word_kanji : decodeBits .c3 [true, false, false, false] = .ok (.kanji, []) := rfl
theorem test_word_fnc1_2 : decodeBits .c3 [true, false, false, true] = .ok (.fnc1_2, []) := rfl
theorem test_word_undef12 : decodeBits .c3 [true, true, false, false] = .ok (.undef 12, []) := rfl
theorem test_word_too_short : decodeBits .c3 [true, true, true] = .error .fewerThanFourBits := rfl

/-- 30_encoding rule R55: `SA_CODE = 0111` takes the row of ECI, which moves to `0011`. -/
theorem test_saCode_displaces : decodeCode .c7 0b0111 = .sa ∧ decodeCode .c7 0b0011 = .eci := by decide

/-- 20_memory rule R36 and 95_test_vectors E7: the stream `0100 00000010 01000001 01000010` as bytes. -/
theorem test_packing_E7 : bitsOfBytes [0x40, 0x24, 0x14, 0x20] =
    b 4 0b0100 ++ b 8 2 ++ b 8 0x41 ++ b 8 0x42 ++ b 4 0 := by decide

/-- V-D2: the stream `101` packs as A0, and its fill is no indicator. -/
theorem test_packing_fill : bytesOfBits 1 [true, false, true] = [0xA0] ∧
    decodeBytes .c3 3 [0xA0] = .error .fewerThanFourBits := ⟨rfl, rfl⟩

/-! ## The ROM (40_field_width_rom) -/

/-- Vectors V-R1 to V-R9. -/
theorem test_tier_boundaries : [(0 : BitVec 6), 1, 9, 10, 26, 27, 40, 41, 63].map tier =
    [.none, .small, .small, .medium, .medium, .large, .large, .none, .none] := by decide

/-- The rows of rule R66 that are not all zero. -/
theorem test_rom_image :
    [(0x04 : BitVec 6), 0x05, 0x06, 0x07, 0x08, 0x09, 0x0A, 0x0B, 0x10, 0x11, 0x12, 0x13, 0x20, 0x21, 0x22, 0x23].map
      (rom .c3) =
    [0x01A, 0x55A, 0x59A, 0x5DA, 0x01B, 0x53B, 0x57B, 0x5BB, 0x018, 0x518, 0x618, 0x618, 0x01D, 0x51D, 0x55D, 0x59D] := by
  decide

/-- The rows of rule R66 that are all zero. -/
theorem test_rom_zeros : ∀ c ∈ [(0 : Code), 3, 5, 6, 7, 9, 10, 11, 12, 13, 14, 15], ∀ t ∈ [(0 : BitVec 2), 1, 2, 3],
    rom .c3 (c ++ t) = 0 := by decide

/-- The worked decode under rule R66: `0x518` is LV 1, LW 8, CV 1, CW 8. -/
theorem test_rom_fields : romLV 0x518 = true ∧ romLW 0x518 = 8 ∧ romCV 0x518 = true ∧ romCW 0x518 = 8 := by decide

/-! ## One step of each indicator: the state after the last step of the vector named -/

/-- V-D3. -/
theorem test_step_end : lands (step (modeAt 1 (b 8 0b00001111))) .done 0x012 4 = true := by decide
/-- V-D4. -/
theorem test_step_num : lands (step (modeAt 1 (b 14 0b00010000000011))) .done 0x11A 4 = true := by decide
/-- V-D5. -/
theorem test_step_alnum : lands (step (modeAt 1 (b 15 0b001000000000001))) .done 0x21A 4 = true := by decide
/-- V-D25: SA at version 0; BUSY stays set. -/
theorem test_step_sa : lands (step (modeAt 0 (b 8 0b00110000))) .mode 0x301 4 = true := by decide
/-- V-D21 to V-D23. -/
theorem test_step_byte_bad_version : ∀ v ∈ [(0 : BitVec 6), 41, 63],
    lands (step (modeAt v (b 12 0b010000000001))) .done 0x42A 4 = true := by decide
/-- V-B2, V-B3: versions 9 and 10 choose an 8-bit and a 16-bit count. -/
theorem test_step_byte : nextIs (step (modeAt 9 (b 4 4))) (fun t => t.st = .len && t.lenwR = 8 && t.chwR = 8) = true ∧
    nextIs (step (modeAt 10 (b 4 4))) (fun t => t.st = .len && t.lenwR = 16 && t.chwR = 8) = true := by decide
/-- V-D10. -/
theorem test_step_fnc1_1 : lands (step (modeAt 1 (b 8 0b01010100))) .done 0x51A 4 = true := by decide
/-- V-D12. -/
theorem test_step_eci : lands (step (modeAt 1 (b 12 0b011100011010))) .done 0x71A 4 = true := by decide
/-- V-D13. -/
theorem test_step_kanji : lands (step (modeAt 1 (b 12 0b100000000001))) .done 0x81A 4 = true := by decide
/-- V-D14. -/
theorem test_step_fnc1_2 : lands (step (modeAt 1 (b 8 0b10010000))) .done 0x91A 4 = true := by decide
/-- V-D11. -/
theorem test_step_undef6 : lands (step (modeAt 1 (b 8 0b01100000))) .done 0x622 4 = true := by decide
/-- V-D20. -/
theorem test_step_undef15 : lands (step (modeAt 1 (b 8 0b11110000))) .done 0xF22 4 = true := by decide
/-- The first step after `withFetchWord` runs the word (opcode_table.json, NUM). -/
theorem test_step_placed_word : lands (step (State.reset.withFetchWord 4 1)) .done 0x11A 4 = true := by decide

/-! ## One step of the other states -/

/-- V-D2: 3 bits stay unread. -/
theorem test_step_noBits : lands (step (modeAt 1 (b 3 0b101))) .done 0x00A 0 = true := by decide
/-- V-S9: a version of 41 is latched unchecked. -/
theorem test_step_start :
    nextIs (step (launchAt 41 0 (b 4 0))) (fun t => t.st = .mode && t.verR = 41 && t.off = 0) = true := by decide
/-- V-S1: nothing happens without `start`. -/
theorem test_step_idle : lands (step small) .idle 0x000 0 = true := by decide
/-- V-S2: `start` and `ver_in` are ignored in DONE. -/
theorem test_step_done : nextIs (step { doneState with ports := busyHost.ports })
    (fun t => t.st = .done && t.verR = 1 && status t = 0x00A) = true := by decide
/-- V-B1: COUNT 0 goes back to MODE. -/
theorem test_step_len_zero : nextIs (step (lenAt 1 8 (b 12 0))) (fun t => t.st = .mode && t.off = 12 && t.cnt = 0) = true := by
  decide
/-- V-B5: a 16-bit COUNT of 2, most significant bit first. -/
theorem test_step_len_sixteen :
    nextIs (step (lenAt 27 16 (b 16 2))) (fun t => t.st = .char && t.off = 20 && t.cnt = 2) = true := by decide
/-- V-B8: 7 of 8 count bits. -/
theorem test_step_len_underrun : lands (step (lenAt 1 8 (b 7 1))) .fault 0x444 4 = true := by decide
/-- V-B11: the byte 0x41 is appended, then the second byte has 5 of 8 bits. -/
theorem test_step_char_append : nextIs (step (charAt 8 2 (b 8 0x41 ++ b 5 0b10101)))
    (fun t => t.st = .char && t.off = 20 && t.cnt = 1 && t.olen = 1 && t.buf = [(0, 0x41)]) = true := by decide
theorem test_step_char_underrun : lands (step (charAfterOne 8 1 (b 5 0b10101))) .fault 0x484 20 = true := by decide
/-- V-B13: the second append finds a buffer of one cell full. -/
theorem test_step_char_overflow : lands (step (charAfterOne 1 1 (b 8 0x42))) .fault 0x4C4 20 = true := by decide
/-- V-B14: both conditions; UNDERRUN_CHAR comes first. -/
theorem test_step_char_priority : lands (step (charAfterOne 1 1 (b 4 4))) .fault 0x484 20 = true := by decide
/-- V-S5: reset in CHAR; the offset stays. -/
theorem test_step_reset : nextIs (step { charAfterOne 8 1 [] with ports := { Ports.low with rst := true } })
    (fun t => t.st = .idle && status t = 0x000 && t.off = 20 && t.buf = [] && t.olen = 0) = true := by decide
/-- V-S7: cell 0 is read, cell 1 holds no value. -/
theorem test_hostRead : hostRead (charAfterOne 8 1 []) 0 = .next 0x41 ∧
    hostRead (charAfterOne 8 1 []) 1 = .fault (.hostReadNoValue 1) := ⟨rfl, rfl⟩
/-- 00_scope rule R2: 8 cells need 4 bits (0 to 8), 64 stream bits need 7, and nothing needs none. -/
theorem test_widths : olenW small.params = 4 ∧ offW small.params = 7 ∧ bitlen 0 = 0 ∧ bitlen 1 = 1 ∧ bitlen 7 = 3 := by decide
/-- The host presents a stream in IDLE, and cannot while BUSY (20_memory rule R45). -/
theorem test_present : (present (some { bits := b 8 1, off := 3 }) small).off = 3 ∧
    (present (some { bits := b 8 1, off := 3 }) (modeAt 1 [])).off = 0 ∧
    (present (some { bits := b 8 1, off := 9 }) small).off = 0 := by decide

/-! ## States that meet the invariant -/

theorem inv_mode : Inv (modeAt 1 (b 4 0)) :=
  ⟨by decide, by decide, by decide, by decide, by decide, by decide, by decide, by decide, by decide,
    (fun h => nomatch h), (fun h => nomatch h)⟩

theorem inv_len8 : Inv (lenAt 1 8 (b 8 1)) :=
  ⟨by decide, by decide, by decide, by decide, by decide, by decide, by decide, by decide, by decide,
    fun _ => ⟨rfl, rfl, rfl⟩, (fun h => nomatch h)⟩

theorem inv_len8_short : Inv (lenAt 1 8 (b 7 1)) :=
  ⟨by decide, by decide, by decide, by decide, by decide, by decide, by decide, by decide, by decide,
    fun _ => ⟨rfl, rfl, rfl⟩, (fun h => nomatch h)⟩

theorem inv_len16 : Inv (lenAt 40 16 (b 16 1)) :=
  ⟨by decide, by decide, by decide, by decide, by decide, by decide, by decide, by decide, by decide,
    fun _ => ⟨rfl, rfl, rfl⟩, (fun h => nomatch h)⟩

theorem inv_char : Inv (charAfterOne 8 1 (b 8 0x42)) :=
  ⟨by decide, by decide, by decide, by decide, by decide, by decide, by decide, by decide, by decide,
    (fun h => nomatch h), fun _ => ⟨⟨rfl, rfl, rfl⟩, by decide⟩⟩

theorem inv_char_short : Inv (charAfterOne 1 1 (b 7 0x42)) :=
  ⟨by decide, by decide, by decide, by decide, by decide, by decide, by decide, by decide, by decide,
    (fun h => nomatch h), fun _ => ⟨⟨rfl, rfl, rfl⟩, by decide⟩⟩

theorem inv_char_full : Inv (charAfterOne 1 1 (b 8 0x42)) :=
  ⟨by decide, by decide, by decide, by decide, by decide, by decide, by decide, by decide, by decide,
    (fun h => nomatch h), fun _ => ⟨⟨rfl, rfl, rfl⟩, by decide⟩⟩

/-- V-B16's launch: one byte at version 1 from offset 3, then 3 bits. -/
theorem launch_one_byte : Launch (launchAt 1 3 (b 3 7 ++ b 4 4 ++ b 8 1 ++ b 8 0x41 ++ b 3 3)) :=
  ⟨⟨by decide, by decide, by decide, by decide, by decide, by decide, by decide, by decide, by decide,
    (fun h => nomatch h), (fun h => nomatch h)⟩, rfl, rfl, rfl⟩

/-- The same at version 40, whose COUNT has 16 bits, then END. -/
theorem launch_large : Launch (launchAt 40 0 (b 4 4 ++ b 16 1 ++ b 8 0x80 ++ b 4 0)) :=
  ⟨⟨by decide, by decide, by decide, by decide, by decide, by decide, by decide, by decide, by decide,
    (fun h => nomatch h), (fun h => nomatch h)⟩, rfl, rfl, rfl⟩

theorem launch_invalid (v : BitVec 6) : Launch (launchAt v 0 (b 4 3 ++ b 4 4)) :=
  ⟨⟨rfl, Nat.zero_le _, Nat.zero_le _, Nat.le_of_ble_eq_true rfl, Nat.le_refl 0, .inl ⟨rfl, rfl⟩,
    fun _ => ⟨rfl, rfl, rfl, rfl, rfl, rfl⟩, ⟨fun h => absurd rfl h, (fun h => nomatch h)⟩,
    ⟨fun h => absurd rfl h, (fun h => nomatch h)⟩, (fun h => nomatch h), (fun h => nomatch h)⟩, rfl, rfl, rfl⟩

/-! ## Witnesses: each obligation's hypotheses are met -/

theorem meets_IndicatorDecodesExactlyItsBits :
    decodeBits .c9 [true, false, false, true, true] = .ok (.sa, [true]) ∧ Instr.sa.wellFormed = true := ⟨rfl, rfl⟩

theorem meets_SegmentReadInvertsEncode :
    segmentWellFormed 8 (.bytes (List.replicate 255 0)) = true ∧ segmentWellFormed 8 (.bytes (List.replicate 256 0)) = false ∧
    segmentWellFormed 8 (.bytes []) = true ∧ segmentWellFormed 16 (.indicator (.undef 15)) = true ∧
    segmentWellFormed 16 (.indicator .byte) = false := by
  refine ⟨?_, ?_, rfl, rfl, rfl⟩ <;> simp only [segmentWellFormed, List.length_replicate] <;> decide

theorem meets_SegmentOccupiesStatedBits :
    lengthFieldBits .byte .small = some 8 ∧ lengthFieldBits .byte .medium = some 16 ∧ lengthFieldBits .byte .large = some 16 := by
  decide

theorem meets_StreamPacksMostSignificantFirst :
    (bitsOfBytes [0x80, 0x01])[0]? = some true ∧ (bitsOfBytes [0x80, 0x01])[15]? = some true ∧
    15 < 8 * [(0 : Byte), 0].length := by
  decide

theorem meets_WidthsPresentTogether : Tier.small ≠ .none ∧ Tier.medium ≠ .none ∧ Tier.large ≠ .none := by decide

/-- The boundaries of the four version ranges, for WidthsByVersion and ByteSelectsWidthsOrStops. -/
theorem meets_version_ranges :
    (∀ v ∈ [(1 : BitVec 6), 9], 1 ≤ v.toNat ∧ v.toNat ≤ 9) ∧
    (∀ v ∈ [(10 : BitVec 6), 26], 10 ≤ v.toNat ∧ v.toNat ≤ 26) ∧
    (∀ v ∈ [(27 : BitVec 6), 40], 27 ≤ v.toNat ∧ v.toNat ≤ 40) ∧
    (∀ v ∈ [(0 : BitVec 6), 41, 63], v.toNat = 0 ∨ 41 ≤ v.toNat) := by
  decide

theorem meets_EndStopsTheDecode : fetches (modeAt 1 (b 8 0b00001111)) [false, false, false, false] (b 4 15) = true := by
  decide

theorem meets_NumStopsUnsupported : fetches (modeAt 1 (b 5 3)) [false, false, false, true] [true] = true := by decide

/-- At the default `SA_CODE`, and ECI at `0011` where `SA_CODE` takes its code. -/
theorem meets_OtherUnsupportedModesStop :
    (∀ c ∈ [(2 : Nat), 5, 7, 8, 9], fetches (modeAt 1 (b 4 c)) (bitsOfNat 4 c) [] = true) ∧
    fetches { State.resetWith (p := { lMax := 64, bufCap := 8, saCode := .c7 }) (b 4 3) 0 Ports.low [] with st := .mode }
      (bitsOfNat 4 3) [] = true := by
  decide

theorem meets_SaIsSkipped : fetches (modeAt 0 (b 8 0x30)) (bitsOfNat 4 (saBits small.params.saCode).toNat) (b 4 0) = true := by
  decide

theorem meets_ByteSelectsWidthsOrStops : ∀ v ∈ [(0 : BitVec 6), 1, 9, 10, 40, 41, 63],
    fetches (modeAt v (b 4 4)) [false, true, false, false] [] = true ∧ (modeAt v (b 4 4)).verR = v := by decide

theorem meets_UndefinedCodesStop : ∀ c ∈ [(6 : Code), 10, 11, 12, 13, 14, 15],
    fetches (modeAt 1 (b 4 c.toNat)) (bitsOfNat 4 c.toNat) [] = true := by decide

/-- Every constructor has a next state; BYTE at a valid and at an invalid version. -/
theorem meets_IndicatorFrame :
    (∀ i ∈ [Instr.endMsg, .num, .alnum, .sa, .byte, .fnc1_1, .eci, .kanji, .fnc1_2, .undef 6],
      nextIs (exec i small) (fun t => t.off = 4) = true) ∧
    nextIs (exec .byte (modeAt 1 [])) (fun t => t.st = .len) = true := by decide

theorem meets_StepRunsTheDecodedInstruction :
    (modeAt 1 (b 8 0x13)).st = .mode ∧ (modeAt 1 (b 8 0x13)).ports.rst = false ∧
    decodeBits (modeAt 1 (b 8 0x13)).params.saCode ((modeAt 1 (b 8 0x13)).stream.drop 0) = .ok (.num, b 4 3) := ⟨rfl, rfl, rfl⟩

/-- Exactly 4 bits left; each arm of the dispatch. -/
theorem meets_ModeFetchTakesThenDispatches : ∀ c ∈ [(0 : Nat), 1, 3, 4, 6],
    (modeAt 1 (b 4 c)).st = .mode ∧ (modeAt 1 (b 4 c)).ports.rst = false ∧
    (modeAt 1 (b 4 c)).off + 4 ≤ (modeAt 1 (b 4 c)).stream.length := by decide

/-- 3, and 0, bits left. -/
theorem meets_NoBitsStopsUnread : ∀ w ∈ [(3 : Nat), 0],
    (modeAt 1 (b w 5)).st = .mode ∧ (modeAt 1 (b w 5)).ports.rst = false ∧
    (modeAt 1 (b w 5)).stream.length < (modeAt 1 (b w 5)).off + 4 := by decide

theorem meets_StartLatchesTheVersion : ∀ v ∈ [(0 : BitVec 6), 63],
    (launchAt v 0 []).st = .idle ∧ (launchAt v 0 []).ports.rst = false ∧ (launchAt v 0 []).ports.start = true := by decide

theorem meets_IdleWaitsForStart : small.st = .idle ∧ small.ports.rst = false ∧ small.ports.start = false := by decide

theorem meets_TerminalStatesHold :
    doneState.st = .done ∧ doneState.ports.rst = false ∧ faultState.st = .fault ∧ faultState.ports.rst = false := by decide

theorem meets_EndedDecodeIsFinal :
    ended { doneState with script := [busyHost] } = true ∧ noReset { doneState with script := [busyHost] } = true ∧
    ended { faultState with script := [busyHost] } = true ∧ noReset { faultState with script := [busyHost] } = true := by decide

theorem meets_ResetSetsEveryRegister : ({ faultState with ports := { Ports.low with rst := true } } : State).ports.rst = true := rfl

theorem meets_ResetLeavesTheStatedValues :
    (State.reset = State.reset ∨ State.reset = resetBlock doneState) ∧ resetBlock faultState = resetBlock faultState :=
  ⟨.inl rfl, rfl⟩

theorem meets_HostInputsIgnoredAfterStart :
    (charAt 8 1 []).st ≠ .idle ∧ noReset (charAt 8 1 []) = true ∧
    noReset { charAt 8 1 [] with ports := busyHost.ports, script := [busyHost] } = true ∧
    blockPart (charAt 8 1 []) = blockPart { charAt 8 1 [] with ports := busyHost.ports, script := [busyHost] } := by decide

/-- A step with a Take of each width, and one with none. -/
theorem meets_OnlyTakeMovesTheCursor :
    (nextIs (step (modeAt 1 (b 4 0))) (fun t => t.st ≠ .idle) = true ∧ curN (modeAt 1 (b 4 0)) = some 4) ∧
    (nextIs (step (lenAt 1 8 (b 8 1))) (fun t => t.st ≠ .idle) = true ∧ curN (lenAt 1 8 (b 8 1)) = some 8) ∧
    (nextIs (step (lenAt 40 16 (b 16 1))) (fun t => t.st ≠ .idle) = true ∧ curN (lenAt 40 16 (b 16 1)) = some 16) ∧
    (nextIs (step (charAt 8 1 (b 8 1))) (fun t => t.st ≠ .idle) = true ∧ curN (charAt 8 1 (b 8 1)) = some 8) ∧
    (nextIs (step doneState) (fun t => t.st ≠ .idle) = true ∧ curN doneState = none) := by decide

/-- States for the premises of every clause: MODE without 4 bits, MODE to DONE, LEN, CHAR with written cells, DONE, FAULT. -/
theorem meets_RegistersChangeOnlyAsStated :
    (∀ s ∈ [modeAt 1 (b 3 0), modeAt 1 (b 4 4), lenAt 1 8 (b 8 1), charAfterOne 8 1 (b 8 1), doneState, faultState],
      nextIs (step s) (fun _ => true) = true ∧ s.ports.rst = false ∧ s.st ≠ .idle) ∧
    (¬ ((modeAt 1 (b 3 0)).st = .mode ∧ (modeAt 1 (b 3 0)).off + 4 ≤ (modeAt 1 (b 3 0)).stream.length)) ∧
    nextIs (step (modeAt 1 (b 3 0))) (fun t => t.st ≠ .len && t.st ≠ .fault) = true ∧
    nextIs (step (lenAt 1 8 (b 8 1))) (fun t => t.st ≠ .done && t.st ≠ .fault) = true ∧
    0 < (charAfterOne 8 1 (b 8 1)).olen := by decide

theorem meets_LenUnderrunFaults : ∀ s ∈ [lenAt 1 8 (b 7 1), lenAt 40 16 (b 15 1)],
    s.st = .len ∧ s.ports.rst = false ∧ s.stream.length < s.off + s.lenwR.toNat := by decide

/-- Exactly the width left; COUNT 0, 255 and 65535. -/
theorem meets_LenReadLoadsTheCount : ∀ s ∈ [lenAt 1 8 (b 8 0), lenAt 9 8 (b 8 255), lenAt 40 16 (b 16 65535)],
    s.st = .len ∧ s.ports.rst = false ∧ s.off + s.lenwR.toNat ≤ s.stream.length := by decide

theorem meets_CharUnderrunFaults : ∀ s ∈ [charAt 8 1 (b 7 1), charAt 8 255 [], charAfterOne 1 1 (b 7 1)],
    s.st = .char ∧ s.ports.rst = false ∧ s.stream.length < s.off + s.chwR.toNat := by decide

/-- A full buffer of one cell and of none; and, for the second clause, a buffer that meets the premise. -/
theorem meets_CharOverflowFaults :
    (∀ s ∈ [charAfterOne 1 1 (b 8 0x42), charAt 0 1 (b 8 1)], s.st = .char ∧ s.ports.rst = false ∧
      s.off + s.chwR.toNat ≤ s.stream.length ∧ s.olen = s.params.bufCap) ∧
    Inv (charAfterOne 8 1 (b 8 0x42)) ∧ (charAfterOne 8 1 (b 8 0x42)).params.lMax / 8 ≤ 8 ∧
    (charAfterOne 8 1 (b 8 0x42)).off + 8 ≤ (charAfterOne 8 1 (b 8 0x42)).stream.length :=
  ⟨by decide, inv_char, by decide, by decide⟩

/-- The last byte and one before it; the last free cell. -/
theorem meets_CharAppendStoresOneByte : ∀ s ∈ [charAt 1 1 (b 8 0xFF), charAt 8 2 (b 8 0), charAfterOne 2 1 (b 8 0x42)],
    s.st = .char ∧ s.ports.rst = false ∧ s.off + s.chwR.toNat ≤ s.stream.length ∧ s.olen < s.params.bufCap := by decide

theorem meets_AppendWritesCellAtOlen : (charAfterOne 8 1 []).buf.wf = true ∧ small.buf.wf = true := by decide

/-- All that remains, and nothing. -/
theorem meets_TakeReadsMostSignificantFirst : avail 16 (lenAt 40 16 (b 16 1)) = true ∧ avail 0 (modeAt 1 []) = true := by decide

theorem meets_TakeWidthsAreFourEightSixteen :
    (Inv (modeAt 1 (b 4 0)) ∧ curN (modeAt 1 (b 4 0)) = some 4) ∧
    (Inv (lenAt 1 8 (b 8 1)) ∧ curN (lenAt 1 8 (b 8 1)) = some 8) ∧
    (Inv (lenAt 40 16 (b 16 1)) ∧ curN (lenAt 40 16 (b 16 1)) = some 16) ∧
    (Inv (charAfterOne 8 1 (b 8 0x42)) ∧ curN (charAfterOne 8 1 (b 8 0x42)) = some 8) :=
  ⟨⟨inv_mode, rfl⟩, ⟨inv_len8, rfl⟩, ⟨inv_len16, rfl⟩, ⟨inv_char, rfl⟩⟩

theorem meets_OffsetKeepsItsResidueModFour :
    Inv (lenAt 40 16 (b 16 1)) ∧ nextIs (step (lenAt 40 16 (b 16 1))) (fun t => t.st ≠ .idle) = true := ⟨inv_len16, by decide⟩

/-- COUNT 1 and COUNT 0 with all data; 7 bits of COUNT; one byte of two, then 7 bits. Widths 8 and 16. -/
theorem meets_ByteSegmentRunsWhole :
    (∀ v : BitVec 6, (modeAt v []).st = .mode ∧ noReset (modeAt v []) = true) ∧
    lengthFieldBits .byte (tier 1) = some 8 ∧ lengthFieldBits .byte (tier 40) = some 16 ∧
    b 4 4 ++ b 8 1 ++ b 8 0x41 ++ b 3 0 = byteSegmentBits .c3 8 1 [0x41] ++ b 3 0 ∧
    b 4 4 ++ b 16 0 = byteSegmentBits .c3 16 0 [] ++ [] ∧
    b 4 4 ++ b 7 1 = [false, true, false, false] ++ b 7 1 ∧ (b 7 1).length < 8 ∧
    b 4 4 ++ b 8 2 ++ b 8 0x41 ++ b 7 0 = byteSegmentBits .c3 8 2 [0x41] ++ b 7 0 ∧ (b 7 0).length < 8 ∧
    small.olen + 1 ≤ small.params.bufCap := by
  refine ⟨fun _ => ⟨rfl, rfl⟩, ?_⟩
  decide

/-- One byte, then 3 bits of anything, and then END at a 16-bit COUNT. -/
theorem meets_EncodedBytesDecodeBack :
    (Launch (launchAt 1 3 (b 3 7 ++ b 4 4 ++ b 8 1 ++ b 8 0x41 ++ b 3 3)) ∧ lengthFieldBits .byte (tier 1) = some 8 ∧
      (b 3 7 ++ b 4 4 ++ b 8 1 ++ b 8 0x41 ++ b 3 3).drop 3 = byteSegmentBits .c3 8 1 [0x41] ++ b 3 3 ∧ (b 3 3).length ≤ 3) ∧
    (Launch (launchAt 40 0 (b 4 4 ++ b 16 1 ++ b 8 0x80 ++ b 4 0)) ∧ lengthFieldBits .byte (tier 40) = some 16 ∧
      b 4 4 ++ b 16 1 ++ b 8 0x80 ++ b 4 0 = byteSegmentBits .c3 16 1 [0x80] ++ [false, false, false, false]) :=
  ⟨⟨launch_one_byte, by decide, by decide, by decide⟩, launch_large, by decide, by decide⟩

/-- The three faults and a step without one. -/
theorem meets_FaultsAreExactlyThree :
    (Inv (lenAt 1 8 (b 7 1)) ∧ nextIs (step (lenAt 1 8 (b 7 1))) (fun t => t.st = .fault) = true) ∧
    (Inv (charAfterOne 1 1 (b 7 0x42)) ∧ nextIs (step (charAfterOne 1 1 (b 7 0x42))) (fun t => t.st = .fault) = true) ∧
    (Inv (charAfterOne 1 1 (b 8 0x42)) ∧ nextIs (step (charAfterOne 1 1 (b 8 0x42))) (fun t => t.st = .fault) = true) ∧
    (Inv (charAfterOne 8 1 (b 8 0x42)) ∧ nextIs (step (charAfterOne 8 1 (b 8 0x42))) (fun t => t.st = .mode) = true) :=
  ⟨⟨inv_len8_short, by decide⟩, ⟨inv_char_short, by decide⟩, ⟨inv_char_full, by decide⟩, inv_char, by decide⟩

theorem meets_FaultsArePrecise : ∀ s ∈ [lenAt 1 8 (b 7 1), charAt 8 1 (b 7 1), charAt 0 1 (b 8 1)],
    s.st ≠ .fault ∧ nextIs (step s) (fun t => t.st = .fault) = true := by decide

/-- NO_BITS, END, UNSUPPORTED, UNDEFINED, BAD_VERSION. -/
theorem meets_StopsAreNotFaults :
    ∀ s ∈ [modeAt 1 (b 3 0), modeAt 1 (b 4 0), modeAt 1 (b 4 1), modeAt 1 (b 4 6), modeAt 41 (b 4 4)],
      s.st ≠ .done ∧ nextIs (step s) (fun t => t.st = .done) = true := by decide

/-- Below OLEN, at OLEN, and at BUF_CAP. -/
theorem meets_HostReadGivesWrittenCellsOnly : Inv (charAfterOne 8 1 (b 8 0x42)) ∧ 0 < (charAfterOne 8 1 (b 8 0x42)).olen ∧
    (charAfterOne 8 1 (b 8 0x42)).olen ≤ 1 ∧ (charAfterOne 8 1 (b 8 0x42)).params.bufCap ≤ 8 :=
  ⟨inv_char, by decide, by decide, by decide⟩

/-- Every clause: a cell written, OLEN, and addresses up to the last `buf_raddr` can carry. -/
theorem meets_OffsetAndCountFitTheirWidths : Inv (charAfterOne 8 1 (b 8 0x42)) ∧
    (charAfterOne 8 1 (b 8 0x42)).buf.read 0 = some 0x41 := ⟨inv_char, rfl⟩

theorem meets_EveryStepKeepsInv :
    Inv (charAfterOne 8 1 (b 8 0x42)) ∧ nextIs (step (charAfterOne 8 1 (b 8 0x42))) (fun t => t.olen = 2) = true :=
  ⟨inv_char, by decide⟩

/-- For DecodeEndsWithinTheBound, RunIsTheSourceDecode and OverflowUnreachableWithRoom: 26 and 23 bits, 8 cells. -/
theorem meets_launch_with_room :
    Launch (launchAt 1 3 (b 3 7 ++ b 4 4 ++ b 8 1 ++ b 8 0x41 ++ b 3 3)) ∧
    remaining (launchAt 1 3 (b 3 7 ++ b 4 4 ++ b 8 1 ++ b 8 0x41 ++ b 3 3)) / 8 ≤ 8 ∧
    nextIs (run 1 (launchAt 1 3 (b 3 7 ++ b 4 4 ++ b 8 1 ++ b 8 0x41 ++ b 3 3))) (fun t => t.st = .mode) = true :=
  ⟨launch_one_byte, by decide, by decide⟩

/-- Versions 0, 41 and 63. -/
theorem meets_InvalidVersionAppendsNothing : ∀ v ∈ [(0 : BitVec 6), 41, 63],
    Launch (launchAt v 0 (b 4 3 ++ b 4 4)) ∧ tier (launchAt v 0 (b 4 3 ++ b 4 4)).ports.verIn = .none ∧
    nextIs (run 1 (launchAt v 0 (b 4 3 ++ b 4 4))) (fun t => t.verR = v) = true := by
  intro v hv
  refine ⟨launch_invalid v, ?_⟩
  revert v hv
  decide

end Sys2Proof.Tests
end

/-! PROOFS. The statements of 00_scope: the widths, the cursor, the buffer, and what a clock may change. -/

namespace Sys2Proof.Machine

/-! ## The widths that vary (00_scope rule R2) -/

/-- `bitlen(n)` is the smallest width that holds `n`. -/
theorem bitlen_le_iff (n w : Nat) : bitlen n ≤ w ↔ n < 2 ^ w := by
  unfold bitlen
  split
  · subst n; simp
  · rename_i hn
    exact Nat.succ_le_iff.trans (Nat.log2_lt hn)

/-- Settles O46: the widths are `bitlen` by definition, and `bitlen` is smallest by `bitlen_le_iff`. -/
theorem varyingWidthsAreSmallest : Obligations.VaryingWidthsAreSmallest :=
  fun _ => ⟨⟨rfl, rfl⟩, fun n w => (bitlen_le_iff n w).symm⟩

/-! ## The buffer (00_scope rule R9) -/

/-- Settles O35, by the rules of a buffer write. -/
theorem appendWritesCellAtOlen : Obligations.AppendWritesCellAtOlen :=
  fun b s hwf => ⟨append_olen b s, append_olen_of_room b s, wf_write _ _ _ hwf, read_write _ _ _⟩

/-- A host read below `OLEN` and inside the buffer answers the cell's byte (20_memory rule R40). -/
theorem hostRead_of_read (s : State) (i : BitVec (olenW s.params)) (b : Byte) (holen : i.toNat < s.olen)
    (hcap : i.toNat < s.params.bufCap) (hb : s.buf.read i.toNat = some b) : hostRead s i = .next b := by
  simp [hostRead, holen, hcap, hb]

/-- Only cells below `OLEN` hold a value (10_state rule R22). -/
theorem Inv.lt_olen_of_read {s : State} (h : Inv s) {a : Nat} {b : Byte} (hb : s.buf.read a = some b) : a < s.olen := by
  have hmem : a ∈ s.buf.map Prod.fst := (read_isSome s.buf a).1 (by simp [hb])
  rwa [h.cells, List.mem_range] at hmem

/-- The host reaches every written cell through `buf_raddr` (10_state rules R21, R22). -/
theorem Inv.exists_hostRead {s : State} (h : Inv s) {a : Nat} {b : Byte} (hb : s.buf.read a = some b) :
    ∃ i : BitVec (olenW s.params), i.toNat = a ∧ hostRead s i = .next b := by
  have holen : a < s.olen := h.lt_olen_of_read hb
  have hcap : a < s.params.bufCap := Nat.lt_of_lt_of_le holen h.room
  have hi : (BitVec.ofNat (olenW s.params) a).toNat = a := by
    rw [BitVec.toNat_ofNat]
    exact Nat.mod_eq_of_lt (Nat.lt_trans hcap (lt_two_pow_bitlen _))
  exact ⟨_, hi, hostRead_of_read s _ b (hi.symm ▸ holen) (hi.symm ▸ hcap) (hi.symm ▸ hb)⟩

/-! ## The cursor (00_scope rule R8, 10_state rules R26 to R28) -/

/-- A number no larger than `L` fits in `OFF_W` bits. -/
theorem Inv.lt_two_pow_offW {s : State} (h : Inv s) {n : Nat} (hn : n ≤ s.stream.length) : n < 2 ^ offW s.params :=
  Nat.lt_of_le_of_lt (hn.trans h.length) (lt_two_pow_bitlen _)

theorem Inv.curRemPort_toNat {s : State} (h : Inv s) : (curRemPort s).toNat = remaining s := by
  rw [curRemPort, BitVec.toNat_ofNat]
  exact Nat.mod_eq_of_lt (h.lt_two_pow_offW (Nat.sub_le _ _))

/-- Settles O47: `OFF` and `L - OFF` are at most `L`, and written cells lie below `OLEN <= BUF_CAP`. -/
theorem offsetAndCountFitTheirWidths : Obligations.OffsetAndCountFitTheirWidths :=
  fun _ h => ⟨h.lt_two_pow_offW h.offset, h.curRemPort_toNat, rfl, fun _ _ hb => h.exists_hostRead hb⟩

/-- Bit `n-1-k` of what `Take(n)` returns is the stream bit at `OFF+k`. -/
theorem getElem?_stream_takeValue (n k : Nat) (s : State) (h : s.off + n ≤ s.stream.length) (hk : k < n) :
    s.stream[s.off + k]? = some ((takeValue n s).testBit (n - 1 - k)) := by
  have hl : ((s.stream.drop s.off).take n).length = n := by
    rw [List.length_take, List.length_drop]; omega
  have hbit := getElem?_natOfBits ((s.stream.drop s.off).take n) k (by omega)
  rwa [hl, List.getElem?_take_of_lt hk, List.getElem?_drop] at hbit

/-- Settles O36, from the field law of `natOfBits` on the `n` bits at `OFF`. -/
theorem takeReadsMostSignificantFirst : Obligations.TakeReadsMostSignificantFirst := by
  intro n s h
  rw [avail_iff] at h
  exact ⟨takeValue_lt n s h, fun k hk => getElem?_stream_takeValue n k s h hk, rfl⟩

/-! ## The step (00_scope rule R11) -/

/-- Settles O48: a reset has its next state, and so has every clock of the block. -/
theorem everyStepAnswersAState : Obligations.EveryStepAnswersAState := by
  intro s
  cases hr : s.ports.rst with
  | true => exact ⟨_, step_of_reset s hr⟩
  | false =>
    obtain ⟨u, hu, _⟩ := blockStep_cases s
    exact ⟨hostClock u, by rw [step_of_run s hr, hu, onNext_next]⟩

/-- In MODE the block runs the instruction it fetches (41_segment_dispatch rule R71). -/
theorem blockStep_of_fetch (s : State) (i : Instr) (rest : Bits) (hst : s.st = .mode) (hf : fetch s = .ok (i, rest)) :
    blockStep s = exec i s := by
  simp only [blockStep, hst, modeStep, hf]

/-- Settles O18: the fetch is the decoder on the stream from `OFF`. -/
theorem stepRunsTheDecodedInstruction : Obligations.StepRunsTheDecodedInstruction :=
  fun s i rest hst hr hd => by rw [step_of_run s hr, blockStep_of_fetch s i rest hst hd]

/-- CHAR APPEND writes no cell below `OLEN` (10_state rule R22). -/
theorem charAppend_read_of_lt (s : State) (a : Nat) (h : a < s.olen) : (charAppend s).buf.read a = s.buf.read a := by
  rw [charAppend_buf, read_write, if_neg (Nat.ne_of_lt h)]

/-- Settles O29: the host's move writes no register, so what changes is read off the effect of each rule of the block. -/
theorem registersChangeOnlyAsStated : Obligations.RegistersChangeOnlyAsStated := by
  intro s t h hr
  obtain ⟨hr', _⟩ | ⟨_, u, hu, rfl⟩ := step_cases s t h
  · rw [hr] at hr'; cases hr'
  obtain ⟨u', hu', hc⟩ := blockStep_cases s
  rw [hu] at hu'; cases hu'
  obtain ⟨hst, _, rfl⟩ | ⟨hst, _, rfl⟩ | ⟨hst, _, rfl⟩ | ⟨hst, hl, he⟩ | ⟨hst, _, rfl⟩ | ⟨hst, _, rfl⟩ |
    ⟨hst, _, rfl⟩ | ⟨hst, _, _, rfl⟩ | ⟨hst, _, _, rfl⟩ | ⟨hst, rfl⟩ := hc
  · simp [hst] -- START
  · simp -- IDLE HOLD
  · simp [hst] -- MODE, NO BITS
  · -- MODE FETCH: a stop, SA, or a BYTE that latches its widths and goes to LEN
    obtain ⟨_, _, e⟩ | ⟨_, e⟩ | ⟨_, _, _, _, e⟩ :=
        exec_cases (decodeCode s.params.saCode (BitVec.ofNat 4 (takeValue 4 s))) s <;>
      rw [e] at he <;> cases he <;> simp [hst, hl]
  · simp [hst] -- LEN UNDERRUN
  · simp [hst] -- LEN READ
  · simp [hst] -- CHAR UNDERRUN
  · simp [hst] -- CHAR OVERFLOW
  · simpa [hst] using charAppend_read_of_lt s -- CHAR APPEND
  · simp -- DONE HOLD, FAULT HOLD

end Sys2Proof.Machine

/-! PROOFS. The statements of 10_state: what reset leaves, STATUS, the cursor, and the invariant of every step. -/

namespace Sys2Proof.Machine

/-! ## The host's move and the cursor (10_state rules R26 to R28, 20_memory rule R45) -/

/-- The host's move leaves the cursor, or in IDLE puts a legal stream there. -/
theorem hostClock_cursor (s : State) :
    ((hostClock s).stream = s.stream ∧ (hostClock s).off = s.off) ∨
    (s.st = .idle ∧ (hostClock s).off ≤ (hostClock s).stream.length ∧
      (hostClock s).stream.length ≤ s.params.lMax) := by
  by_cases hst : s.st = .idle
  · cases hc : presented s with
    | none => exact .inl (by simp [hostClock, present, acceptCursor, hc])
    | some c =>
      by_cases hl : c.legal s.params = true
      · have hle : c.off ≤ c.bits.length ∧ c.bits.length ≤ s.params.lMax := by simpa [Cursor.legal] using hl
        exact .inr (by simpa [hostClock, present, acceptCursor, hc, hst, hl] using hle)
      · exact .inl (by simp [hostClock, present, acceptCursor, hc, hl])
  · exact .inl ⟨hostClock_stream s hst, hostClock_off s hst⟩

/-! ## Every step keeps the invariant -/

/-- In IDLE no cell is written (10_state rules R22, R32). -/
theorem Inv.olen_of_idle {s : State} (h : Inv s) (hst : s.st = .idle) : s.olen = 0 := by
  obtain ⟨_, _, _, _, _, holen⟩ := h.idle hst
  exact holen

/-- Outside DONE no stop reason is set (10_state rule R23). -/
theorem Inv.stopR_eq_none {s : State} (h : Inv s) (hst : s.st ≠ .done) : s.stopR = .none :=
  Decidable.not_not.1 (mt h.stop.1 hst)

/-- Outside FAULT no fault cause is set (10_state rule R24). -/
theorem Inv.fcauseR_eq_none {s : State} (h : Inv s) (hst : s.st ≠ .fault) : s.fcauseR = .none :=
  Decidable.not_not.1 (mt h.cause.1 hst)

/-- The character width of an open segment is 8 bits (10_state rule R19). -/
theorem SegmentOpen.charWidth_eq {s : State} (h : SegmentOpen s) : charWidth s = 8 :=
  (Option.some.inj h.charW).symm

/-- A COUNT field has at most 16 bits (10_state rule R18). -/
theorem SegmentOpen.lenWidth_le {s : State} (h : SegmentOpen s) : lenWidth s ≤ 16 := by
  obtain ⟨_, hw⟩ | ⟨_, hw⟩ := byte_width_cases _ _ h.lenW <;> omega

theorem inv_resetWith {p : Params} (bs : Bits) (n : Nat) (x : Ports p) (q : List (HostMove p))
    (hn : n ≤ bs.length) (hl : bs.length ≤ p.lMax) : Inv (State.resetWith bs n x q) := by
  constructor <;> simp [hn, hl]

theorem inv_hostClock (s : State) (h : Inv s) : Inv (hostClock s) := by
  have hcursor : (hostClock s).off ≤ (hostClock s).stream.length ∧
      (hostClock s).stream.length ≤ s.params.lMax ∧ 8 * s.olen ≤ (hostClock s).off := by
    obtain ⟨hs, ho⟩ | ⟨hst, hle, hmax⟩ := hostClock_cursor s
    · rw [hs, ho]; exact ⟨h.offset, h.length, h.eightBitsEach⟩
    · exact ⟨hle, hmax, by rw [h.olen_of_idle hst]; exact Nat.zero_le _⟩
  obtain ⟨hle, hmax, h8⟩ := hcursor
  exact { h with
    offset := hle
    length := hmax
    eightBitsEach := h8
    len := fun hst => { h.len hst with }
    char := fun hst => ⟨{ (h.char hst).1 with }, (h.char hst).2⟩ }

theorem inv_startDecode (s : State) (h : Inv s) (hst : s.st = .idle) : Inv (startDecode s) where
  cells := by simpa [h.olen_of_idle hst] using h.cells
  room := by simp
  offset := h.offset
  length := h.length
  eightBitsEach := by simp
  widths := h.widths
  idle := by simp
  stop := by simp
  cause := by simp
  len := by simp
  char := by simp

theorem inv_stopWith (r : StopReason) (s : State) (h : Inv s) (hst : s.st = .mode) (hr : r ≠ .none) :
    Inv (stopWith r s) :=
  { h with
    idle := by simp
    stop := by simp [hr]
    cause := by simp [h.fcauseR_eq_none, hst]
    len := by simp
    char := by simp }

theorem inv_takeIndicator (i : Instr) (s : State) (h : Inv s) (hst : s.st = .mode)
    (hl : s.off + 4 ≤ s.stream.length) : Inv (takeIndicator i s) :=
  { h with
    offset := hl
    eightBitsEach := Nat.le_add_right_of_le h.eightBitsEach
    idle := by simp [hst]
    len := by simp [hst]
    char := by simp [hst] }

/-- SA leaves what the indicator's Take leaves: the block is in MODE already (41_segment_dispatch rule R75). -/
theorem skipIndicator_eq (i : Instr) (s : State) (hst : s.st = .mode) : skipIndicator i s = takeIndicator i s := by
  rw [skipIndicator, ← hst]; rfl

/-- The widths latched for BYTE are those of the version (41_segment_dispatch rule R76). -/
theorem segmentOpen_latchWidths (w : BitVec 5) (s : State)
    (hw : lengthFieldBits .byte (tier s.verR) = some w.toNat) : SegmentOpen (latchWidths .byte w 8 s) where
  lenW := hw
  charW := rfl
  mode := byte_code _

theorem inv_latchWidths (w : BitVec 5) (s : State) (h : Inv s) (hst : s.st = .mode)
    (hl : s.off + 4 ≤ s.stream.length) (hw : lengthFieldBits .byte (tier s.verR) = some w.toNat)
    (hw8 : w = 8 ∨ w = 16) : Inv (latchWidths .byte w 8 s) :=
  { inv_takeIndicator .byte s h hst hl with
    widths := .inr ⟨hw8, rfl⟩
    idle := by simp
    stop := by simp [h.stopR_eq_none, hst]
    cause := by simp [h.fcauseR_eq_none, hst]
    len := fun _ => segmentOpen_latchWidths w s hw
    char := by simp }

theorem inv_exec (i : Instr) (s t : State) (h : Inv s) (hst : s.st = .mode) (hl : s.off + 4 ≤ s.stream.length)
    (he : exec i s = .next t) : Inv t := by
  have htake : ∀ i, Inv (takeIndicator i s) := fun i => inv_takeIndicator i s h hst hl
  obtain ⟨r, hr, e⟩ | ⟨_, e⟩ | ⟨_, w, hw, hw8, e⟩ := exec_cases i s <;> rw [e] at he <;> cases he
  · exact inv_stopWith r _ (htake i) hst hr
  · exact skipIndicator_eq .sa s hst ▸ htake .sa
  · exact inv_latchWidths w s h hst hl hw hw8

theorem inv_raiseFault (c : FaultCause) (s : State) (h : Inv s) (hst : s.st ≠ .done) (hc : c ≠ .none) :
    Inv (raiseFault c s) :=
  { h with
    idle := by simp
    stop := by simp [h.stopR_eq_none hst]
    cause := by simp [hc]
    len := by simp
    char := by simp }

/-- The count fits in `CNT`, which is 0 only for an empty segment (42_byte_segment rule R88). -/
theorem ofNat_countField_eq_zero_iff (s : State) (hs : SegmentOpen s) (hl : s.off + lenWidth s ≤ s.stream.length) :
    BitVec.ofNat 16 (countField s) = 0 ↔ countField s = 0 := by
  have hlt : countField s < 2 ^ 16 :=
    Nat.lt_of_lt_of_le (takeValue_lt _ s hl) (Nat.pow_le_pow_right (by decide) hs.lenWidth_le)
  rw [← BitVec.toNat_inj, BitVec.toNat_ofNat, Nat.mod_eq_of_lt hlt]; rfl

theorem inv_lenRead (s : State) (h : Inv s) (hst : s.st = .len) (hl : s.off + lenWidth s ≤ s.stream.length) :
    Inv (lenRead s) :=
  { h with
    offset := hl
    eightBitsEach := Nat.le_add_right_of_le h.eightBitsEach
    idle := by simp [ite_eq_iff]
    stop := by simp [ite_eq_iff, h.stopR_eq_none, hst]
    cause := by simp [ite_eq_iff, h.fcauseR_eq_none, hst]
    len := by simp [ite_eq_iff]
    char := fun hchar => by
      have hcount : countField s ≠ 0 := fun hc => by simp [hc] at hchar
      have hopen : SegmentOpen s := h.len hst
      exact ⟨{ hopen with }, mt (ofNat_countField_eq_zero_iff s hopen hl).1 hcount⟩ }

/-- Appending at `OLEN` writes the next cell in order (10_state rule R22). -/
theorem Inv.cells_write {s : State} (h : Inv s) (v : Byte) :
    (s.buf.write s.olen v).map Prod.fst = List.range (s.olen + 1) := by
  have hbelow : ∀ c ∈ s.buf, c.1 < s.olen := fun c hc => by
    rw [← List.mem_range, ← h.cells]; exact List.mem_map_of_mem hc
  rw [write_above _ _ _ hbelow, List.map_append, h.cells, List.range_succ]; rfl

theorem inv_charAppend (s : State) (h : Inv s) (hst : s.st = .char) (hl : s.off + charWidth s ≤ s.stream.length)
    (hroom : s.olen < s.params.bufCap) : Inv (charAppend s) := by
  obtain ⟨hopen, _⟩ := h.char hst
  have holen : (charAppend s).olen = s.olen + 1 := charAppend_olen_of_room s hroom
  have h8 : 8 * (s.olen + 1) ≤ s.off + charWidth s := by have := h.eightBitsEach; rw [hopen.charWidth_eq]; omega
  exact { h with
    cells := by rw [holen]; exact h.cells_write _
    room := by rw [holen]; exact hroom
    offset := hl
    eightBitsEach := by rw [holen]; exact h8
    idle := by simp [ite_eq_iff]
    stop := by simp [ite_eq_iff, h.stopR_eq_none, hst]
    cause := by simp [ite_eq_iff, h.fcauseR_eq_none, hst]
    len := by simp [ite_eq_iff]
    char := fun hchar => ⟨{ hopen with }, fun (hc : s.cnt - 1 = 0) => by
      rw [charAppend_st, if_pos hc] at hchar; cases hchar⟩ }

/-- Every rule of the block keeps the invariant. -/
theorem inv_blockStep (s t : State) (h : Inv s) (hs : blockStep s = .next t) : Inv t := by
  obtain ⟨t', ht', hc⟩ := blockStep_cases s
  rw [hs] at ht'; cases ht'
  obtain ⟨hst, _, rfl⟩ | ⟨_, _, rfl⟩ | ⟨hst, _, rfl⟩ | ⟨hst, hl, he⟩ | ⟨hst, _, rfl⟩ | ⟨hst, hl, rfl⟩ |
    ⟨hst, _, rfl⟩ | ⟨hst, _, _, rfl⟩ | ⟨hst, hl, hroom, rfl⟩ | ⟨_, rfl⟩ := hc
  · exact inv_startDecode s h hst
  · exact h -- IDLE HOLD
  · exact inv_stopWith .noBits s h hst (by decide)
  · exact inv_exec _ s t h hst hl he
  · exact inv_raiseFault .underrunLen s h (by simp [hst]) (by decide)
  · exact inv_lenRead s h hst hl
  · exact inv_raiseFault .underrunChar s h (by simp [hst]) (by decide)
  · exact inv_raiseFault .overflow s h (by simp [hst]) (by decide)
  · exact inv_charAppend s h hst hl hroom
  · exact h -- DONE HOLD, FAULT HOLD

/-- Settles O50: reset, every rule of the block and the host's move after the edge keep the invariant. -/
theorem everyStepKeepsInv : Obligations.EveryStepKeepsInv := by
  intro s t h hs
  obtain ⟨_, rfl⟩ | ⟨_, u, hu, rfl⟩ := step_cases s t hs
  · exact inv_hostClock _ (inv_resetWith _ _ _ _ h.offset h.length)
  · exact inv_hostClock u (inv_blockStep s u h hu)

/-- Settles O49: the empty stream of `State.reset` has its offset 0 within `L_MAX`. -/
theorem resetMeetsInv : Obligations.ResetMeetsInv :=
  inv_resetWith _ _ _ _ (Nat.zero_le _) (Nat.zero_le _)

/-! ## Only Take moves the cursor (10_state rules R26 to R30) -/

/-- A clock with `rst = 0` moves OFF by the width of its Take. -/
theorem blockStep_off (s t : State) (hr : s.ports.rst = false) (hs : blockStep s = .next t) :
    t.off = s.off + (curN s).getD 0 := by
  obtain ⟨t', ht', hc⟩ := blockStep_cases s
  rw [hs] at ht'; cases ht'
  obtain ⟨hst, _, rfl⟩ | ⟨hst, _, rfl⟩ | ⟨hst, hl, rfl⟩ | ⟨hst, hl, he⟩ | ⟨hst, hl, rfl⟩ | ⟨hst, hl, rfl⟩ |
    ⟨hst, hl, rfl⟩ | ⟨hst, hl, hb, rfl⟩ | ⟨hst, hl, hb, rfl⟩ | ⟨hst, rfl⟩ := hc
  · simp [curN, hr, hst] -- START
  · simp [curN, hr, hst] -- IDLE HOLD
  · simp [curN, hr, hst, (avail_false_iff 4 s).2 hl] -- MODE, NO BITS
  · -- MODE FETCH
    have ht : t.off = s.off + 4 := by
      obtain ⟨_, _, e⟩ | ⟨_, e⟩ | ⟨_, _, _, _, e⟩ :=
          exec_cases (decodeCode s.params.saCode (BitVec.ofNat 4 (takeValue 4 s))) s <;>
        rw [e] at he <;> cases he <;> rfl
    simp [curN, hr, hst, (avail_iff 4 s).2 hl, ht]
  · simp [curN, hr, hst, (avail_false_iff _ s).2 hl] -- LEN UNDERRUN
  · simp [curN, hr, hst, (avail_iff _ s).2 hl] -- LEN READ
  · simp [curN, hr, hst, (avail_false_iff _ s).2 hl] -- CHAR UNDERRUN
  · simp [curN, hr, hst, (bufFull_iff s).2 hb] -- CHAR OVERFLOW
  · simp [curN, hr, hst, (avail_iff _ s).2 hl, (bufFull_false_iff s).2 hb] -- CHAR APPEND
  · obtain hst | hst := hst <;> simp [curN, hr, hst] -- DONE HOLD, FAULT HOLD

/-- A Take asks for bits that remain, and the port carries its value (10_state rules R28, R29). -/
theorem curData_of_curN (s : State) (n : Nat) (h : curN s = some n) :
    n ≤ remaining s ∧ curData s = some (BitVec.ofNat 16 (takeValue n s)) := by
  obtain ⟨_, hl, _⟩ := curN_eq_some s n h
  exact ⟨Nat.le_sub_of_add_le' hl, by rw [curData, h]; rfl⟩

/-- Settles O28: a step that does not end in IDLE is no reset, and outside IDLE the host leaves the cursor. -/
theorem onlyTakeMovesTheCursor : Obligations.OnlyTakeMovesTheCursor := by
  intro s t hs hst
  obtain ⟨_, rfl⟩ | ⟨hr, u, hu, rfl⟩ := step_cases s t hs
  · exact absurd rfl hst
  · have hni : u.st ≠ .idle := hst
    exact ⟨(hostClock_stream u hni).trans (blockStep_stream s u hu),
      (hostClock_off u hni).trans (blockStep_off s u hr hu), curData_of_curN s⟩

/-! ## STATUS (10_state rule R25) -/

/-- STATUS is the three registers above the three flags. -/
theorem status_eq_append (s : State) : status s = (s.modeR ++ fcauseCode s.fcauseR ++ stopCode s.stopR) ++
    (BitVec.ofBool (faultFlag s) ++ BitVec.ofBool (doneFlag s) ++ BitVec.ofBool (busyFlag s)) := by
  simp only [status, BitVec.append_assoc, BitVec.cast_eq]

theorem status_flags (s : State) : (status s).extractLsb' 0 3 =
    BitVec.ofBool (faultFlag s) ++ BitVec.ofBool (doneFlag s) ++ BitVec.ofBool (busyFlag s) := by
  rw [status_eq_append]; exact BitVec.extractLsb'_append_eq_right

theorem status_stop (s : State) : (status s).extractLsb' 3 3 = stopCode s.stopR := by
  rw [status_eq_append, BitVec.extractLsb'_append_eq_of_le (by decide)]
  exact BitVec.extractLsb'_append_eq_right

theorem status_fcause (s : State) : (status s).extractLsb' 6 2 = fcauseCode s.fcauseR := by
  rw [status_eq_append, BitVec.extractLsb'_append_eq_of_le (by decide), BitVec.extractLsb'_append_eq_of_le (by decide)]
  exact BitVec.extractLsb'_append_eq_right

theorem status_mode (s : State) : (status s).extractLsb' 8 4 = s.modeR := by
  rw [status_eq_append, BitVec.extractLsb'_append_eq_of_le (by decide), BitVec.extractLsb'_append_eq_of_le (by decide)]
  exact BitVec.extractLsb'_append_eq_left

theorem status_busy (s : State) : (status s).getLsbD 0 = busyFlag s := by
  rw [status, BitVec.getLsbD_append]; simp

theorem status_done (s : State) : (status s).getLsbD 1 = doneFlag s := by
  rw [status, BitVec.getLsbD_append, BitVec.getLsbD_append]; simp

theorem status_fault (s : State) : (status s).getLsbD 2 = faultFlag s := by
  rw [status, BitVec.getLsbD_append, BitVec.getLsbD_append, BitVec.getLsbD_append]; simp

/-- Settles O44: each field sits at its bits, and the flags are all 0 in IDLE alone. -/
theorem statusFields : Obligations.StatusFields := by
  intro s
  refine ⟨status_busy s, status_done s, status_fault s, status_stop s, status_fcause s, status_mode s, ?_⟩
  rw [status_flags]
  cases hst : s.st <;> simp [faultFlag, doneFlag, busyFlag, hst]

/-! ## What reset leaves (10_state rule R32) -/

theorem status_resetWith {p : Params} (bs : Bits) (n : Nat) (x : Ports p) (q : List (HostMove p)) :
    status (State.resetWith bs n x q) = 0 := by
  simp [status, fcauseCode, stopCode, faultFlag, doneFlag, busyFlag]

theorem curTake_of_idle (s : State) (hst : s.st = .idle) : curTake s = false := by
  simp [curTake, curN, hst]

/-- Settles O26: both states are `State.resetWith`, and `resetBlock` keeps the cursor. -/
theorem resetLeavesTheStatedValues : Obligations.ResetLeavesTheStatedValues := by
  intro s t ht
  have hcursor : t = resetBlock s → t.stream = s.stream ∧ t.off = s.off := by rintro rfl; exact ⟨rfl, rfl⟩
  have hreset : ∃ (p : Params) (bs : Bits) (n : Nat) (x : Ports p) (q : List (HostMove p)),
      t = State.resetWith bs n x q := by
    obtain rfl | rfl := ht
    · exact ⟨_, _, _, _, _, rfl⟩
    · exact ⟨_, _, _, _, _, rfl⟩
  obtain ⟨p, bs, n, x, q, rfl⟩ := hreset
  exact ⟨rfl, rfl, rfl, rfl, rfl, rfl, rfl, fun _ => rfl, rfl, rfl, status_resetWith bs n x q, curTake_of_idle _ rfl,
    rfl, rfl, rfl, rfl, hcursor⟩

end Sys2Proof.Machine

/-! PROOFS. The statements of 20_memory: the packing of a stream, the alignment of a decode, its end, and the host's
read. -/

namespace Sys2Proof

/-! ## The packing of a stream (20_memory rule R36) -/

/-- Bit `w-1-k` of a number is bit `k` of its field, most significant first. -/
theorem getElem?_bitsOfNat (w n k : Nat) (h : k < w) : (bitsOfNat w n)[k]? = some (n.testBit (w - 1 - k)) := by
  induction w generalizing k with
  | zero => omega
  | succ w ih =>
    cases k with
    | zero => simp [bitsOfNat]
    | succ k =>
      rw [bitsOfNat, List.getElem?_cons_succ, ih k (by omega)]
      congr 2; omega

/-- Stream position `p` is bit `7 - p mod 8` of byte `p div 8`. -/
theorem getElem?_bitsOfBytes (bs : List Byte) (p : Nat) (h : p < 8 * bs.length) :
    (bitsOfBytes bs)[p]? = (bs[p / 8]?).map (fun b => b.getLsbD (7 - p % 8)) := by
  induction bs generalizing p with
  | nil => simp at h
  | cons b bs ih =>
    rw [List.length_cons] at h
    rw [bitsOfBytes_cons]
    by_cases hp : p < 8
    · rw [List.getElem?_append_left (by simpa using hp), getElem?_bitsOfNat 8 _ p hp, Nat.div_eq_of_lt hp,
        Nat.mod_eq_of_lt hp]
      rfl
    · obtain ⟨q, rfl⟩ : ∃ q, p = q + 8 := ⟨p - 8, by omega⟩
      rw [List.getElem?_append_right (by simp), length_bitsOfNat, Nat.add_sub_cancel, ih q (by omega),
        Nat.add_div_right q (by decide), Nat.add_mod_right, List.getElem?_cons_succ]

/-- Eight bits packed into a byte and laid out again are those bits. -/
theorem bitsOfNat_byte_natOfBits (x : Bits) (h : x.length = 8) :
    bitsOfNat 8 (BitVec.ofNat 8 (natOfBits x)).toNat = x := by
  have hlt : natOfBits x < 2 ^ 8 := h ▸ natOfBits_lt x
  have hx := bitsOfNat_natOfBits x
  rwa [h, ← Nat.mod_eq_of_lt hlt, ← BitVec.toNat_ofNat] at hx

/-- Bytes enough for a stream hold it, followed by zero fill. -/
theorem bitsOfBytes_bytesOfBits (n : Nat) (bs : Bits) (h : bs.length ≤ 8 * n) :
    bitsOfBytes (bytesOfBits n bs) = bs ++ List.replicate (8 * n - bs.length) false := by
  induction n generalizing bs with
  | zero =>
    obtain rfl : bs = [] := List.length_eq_zero_iff.1 (by omega)
    rfl
  | succ n ih =>
    have h8 : (bs.take 8 ++ List.replicate (8 - bs.length) false).length = 8 := by simp; omega
    rw [bytesOfBits, bitsOfBytes_cons, bitsOfNat_byte_natOfBits _ h8, ih _ (by simp; omega), List.length_drop]
    by_cases hl : 8 ≤ bs.length
    · -- a full byte: no fill in it
      have hz : 8 - bs.length = 0 := by omega
      have hf : 8 * n - (bs.length - 8) = 8 * (n + 1) - bs.length := by omega
      rw [hz, hf, List.replicate_zero, List.append_nil, ← List.append_assoc, List.take_append_drop]
    · -- the last byte of the stream: the rest is fill
      have hf : 8 - bs.length + (8 * n - (bs.length - 8)) = 8 * (n + 1) - bs.length := by omega
      rw [List.take_of_length_le (by omega), List.drop_of_length_le (by omega), List.nil_append, List.append_assoc,
        List.replicate_append_replicate, hf]

/-- A stream is what its length reads from its bytes: the fill is no part of it. -/
theorem streamOfBytes_bytesOfBits (n : Nat) (bs : Bits) (h : bs.length ≤ 8 * n) :
    streamOfBytes bs.length (bytesOfBits n bs) = bs := by
  rw [streamOfBytes, bitsOfBytes_bytesOfBits n bs h, List.take_left']
  rfl

/-- `ceil(L / 8)` bytes hold `L` bits. -/
theorem le_eight_mul_ceil (l : Nat) : l ≤ 8 * ((l + 7) / 8) := by omega

/-- Settles O6: packing is inverted byte by byte, and the decoder reads the stream the bytes hold. -/
theorem streamPacksMostSignificantFirst : Obligations.StreamPacksMostSignificantFirst := by
  have hstream (bs : Bits) : streamOfBytes bs.length (bytesOfBits ((bs.length + 7) / 8) bs) = bs :=
    streamOfBytes_bytesOfBits _ bs (le_eight_mul_ceil _)
  exact ⟨getElem?_bitsOfBytes, fun bs => bitsOfBytes_bytesOfBits _ bs (le_eight_mul_ceil _), hstream,
    fun sa bs => by rw [decodeBytes, hstream]⟩

end Sys2Proof

namespace Sys2Proof.Machine

/-! ## The Takes of a decode and its alignment (20_memory rules R37, R38) -/

/-- In LEN the latched count width is 8 or 16 (10_state rule R18). -/
theorem SegmentOpen.lenWidth_cases {s : State} (h : SegmentOpen s) : lenWidth s = 8 ∨ lenWidth s = 16 :=
  (byte_width_cases _ _ h.lenW).imp And.right And.right

/-- Settles O37: a Take is an indicator's, or its width is one that the open segment latched. -/
theorem takeWidthsAreFourEightSixteen : Obligations.TakeWidthsAreFourEightSixteen := by
  intro s n h hn
  obtain ⟨hle, _⟩ := curData_of_curN s n hn
  refine ⟨hle, ?_⟩
  obtain ⟨_, _, ⟨hst, rfl⟩ | ⟨hst, rfl⟩ | ⟨hst, rfl, _⟩⟩ := curN_eq_some s n hn
  · exact .inl ⟨hst, rfl⟩
  · exact .inr (.inl ⟨hst, rfl, (h.len hst).lenWidth_cases⟩)
  · exact .inr (.inr ⟨hst, rfl, (h.char hst).1.charWidth_eq⟩)

/-- The cursor moves by whole nibbles. -/
theorem Inv.four_dvd_take {s : State} (h : Inv s) : 4 ∣ (curN s).getD 0 := by
  cases hn : curN s with
  | none => exact Nat.dvd_zero 4
  | some n =>
    rw [Option.getD_some]
    obtain ⟨_, ⟨_, rfl⟩ | ⟨_, _, rfl | rfl⟩ | ⟨_, _, rfl⟩⟩ := takeWidthsAreFourEightSixteen s n h hn <;> decide

/-- Settles O38: OFF moves by the width of a Take, which is a multiple of 4. -/
theorem offsetKeepsItsResidueModFour : Obligations.OffsetKeepsItsResidueModFour := by
  intro s t h hs hst
  obtain ⟨_, hoff, _⟩ := onlyTakeMovesTheCursor s t hs hst
  obtain ⟨k, hk⟩ := h.four_dvd_take
  rw [hoff, hk, Nat.add_mul_mod_self_left]

/-! ## The end of a decode (20_memory rules R43, R45) -/

theorem ended_iff (s : State) : ended s = true ↔ s.st = .done ∨ s.st = .fault := by simp [ended]

/-- After its end a decode waits: the host alone moves (41_segment_dispatch rules R82, R83). -/
theorem step_of_ended (s : State) (h : ended s = true) (hr : s.ports.rst = false) : step s = .next (hostClock s) := by
  rw [step_of_run s hr]
  obtain hst | hst := (ended_iff s).1 h <;> simp only [blockStep, hst] <;> rfl

theorem ne_idle_of_ended (s : State) (h : ended s = true) : s.st ≠ .idle := by
  obtain hst | hst := (ended_iff s).1 h <;> simp [hst]

/-- Settles O24, by induction on the number of steps, each of which is the host's move alone. -/
theorem endedDecodeIsFinal : Obligations.EndedDecodeIsFinal := by
  intro n
  induction n with
  | zero => exact fun s _ _ => ⟨s, rfl, rfl⟩
  | succ n ih =>
    intro s h hn
    obtain ⟨t, ht, hb⟩ := ih (hostClock s) h (noReset_hostClock s hn)
    have hs : step s = .next (hostClock s) := step_of_ended s h (noReset_rst s hn)
    exact ⟨t, (run_succ n s _ hs).trans ht, hb.trans (blockPart_hostClock s (ne_idle_of_ended s h))⟩

/-! ## The host's read (20_memory rule R40) -/

/-- Every cell below `OLEN` holds a value (10_state rule R22). -/
theorem Inv.exists_read_of_lt {s : State} (h : Inv s) {a : Nat} (ha : a < s.olen) : ∃ b, s.buf.read a = some b := by
  rw [← Option.isSome_iff_exists, read_isSome, h.cells, List.mem_range]
  exact ha

/-- A read at or beyond `OLEN`, or beyond the buffer, is a host-read fault. -/
theorem hostRead_of_out_of_range (s : State) (i : BitVec (olenW s.params))
    (h : s.olen ≤ i.toNat ∨ s.params.bufCap ≤ i.toNat) : hostRead s i = .fault (.hostReadNoValue i.toNat) :=
  if_neg (by omega)

/-- Settles O45: the written cells are those below `OLEN`, and all lie in the buffer. -/
theorem hostReadGivesWrittenCellsOnly : Obligations.HostReadGivesWrittenCellsOnly := by
  intro s i h
  refine ⟨fun hi => ?_, hostRead_of_out_of_range s i⟩
  obtain ⟨b, hb⟩ := h.exists_read_of_lt hi
  exact ⟨b, hb, hostRead_of_read s i b hi (Nat.lt_of_lt_of_le hi h.room) hb⟩

end Sys2Proof.Machine

/-! PROOFS. The statements of 30_encoding: the opcode map, the indicator as four bits, and the segment as one reads it. -/

namespace Sys2Proof

/-! ## The opcode map (30_encoding rules R54, R55) -/

/-- At the default `SA_CODE` the map is the one rule R55 shows. -/
theorem modeFromCode_default (c : Code) : modeFromCode .c3 c = standardMode c := by
  by_cases h : c = saBits .c3
  · subst c; rfl
  · exact (if_neg h).trans (if_neg h)

/-- `SA_CODE` is the code of a mode, so the row it displaces is never UNDEF (rule R1). -/
theorem exists_standardMode_saBits (sa : SaCode) : ∃ m, standardMode (saBits sa) = some m := by
  cases sa <;> exact ⟨_, rfl⟩

/-- A 4-bit word of the opcode table decodes as the code it shows. -/
theorem decodeTableWord_toNat (c : Code) : decodeTableWord 4 c.toNat = some (decodeCode .c3 c) := by
  have hbits : bitsOfTableWord 4 c.toNat = encodeBits .c3 (decodeCode .c3 c) ++ List.replicate 16 false := by
    change bitsOfNat 4 (c.toNat % 16) ++ [] ++ _ = _
    rw [Nat.mod_eq_of_lt c.isLt, List.append_nil, encodeBits, encode_decodeCode]
  rw [decodeTableWord, hbits, decodeBits_encodeBits _ _ _ (decodeCode_wellFormed .c3 c)]

/-- Settles O1: each word is the code it shows, whose row is read off the map. -/
theorem tableWordsDecode : Obligations.TableWordsDecode :=
  ⟨decodeTableWord_toNat 0x0, decodeTableWord_toNat 0x1, decodeTableWord_toNat 0x2, decodeTableWord_toNat 0x3,
    decodeTableWord_toNat 0x4, decodeTableWord_toNat 0x5, decodeTableWord_toNat 0x6, decodeTableWord_toNat 0x7,
    decodeTableWord_toNat 0x8, decodeTableWord_toNat 0x9, decodeTableWord_toNat 0xA, decodeTableWord_toNat 0xF⟩

/-- Settles O2: the default map is rule R55's, and the map of `sa` differs from it at `SA_CODE` and `0011` alone. -/
theorem saCodeMovesOneRow : Obligations.SaCodeMovesOneRow := by
  intro sa c
  obtain ⟨m, hm⟩ := exists_standardMode_saBits sa
  simp only [decodeCode, modeFromCode_default, hm]
  rw [modeFromCode, hm]
  split_ifs <;> rfl

/-! ## The indicator (30_encoding rules R48, R51, R56) -/

/-- Settles O3: what the decoder answers is encoded by the bits it took, and every encoding decodes back. -/
theorem indicatorDecodesExactlyItsBits : Obligations.IndicatorDecodesExactlyItsBits := by
  intro sa bs rest i
  constructor
  · exact decodeBits_ok sa bs rest i
  · rintro ⟨hwf, rfl⟩
    exact decodeBits_encodeBits sa i rest hwf

@[simp] theorem length_encodeBits (sa : SaCode) (i : Instr) : (encodeBits sa i).length = 4 := length_bitsOfNat 4 _

end Sys2Proof

namespace Sys2Proof.Machine

/-! ## The segment (30_encoding rules R49 to R51, R57, R58) -/

/-- A byte segment is its indicator, its COUNT field and its data. -/
@[simp] theorem length_byteSegmentBits (sa : SaCode) (w n : Nat) (data : List Byte) :
    (byteSegmentBits sa w n data).length = 4 + w + 8 * data.length := by
  simp [byteSegmentBits, Nat.add_assoc]

/-- Settles O5: BYTE's length width is 8 at SMALL and 16 above, and the fields' lengths add up. -/
theorem segmentOccupiesStatedBits : Obligations.SegmentOccupiesStatedBits := by
  intro sa t w hw
  refine ⟨?_, ?_, fun data => length_byteSegmentBits sa w data.length data, length_encodeBits sa⟩
  · exact (byte_width_cases t w hw).imp And.right And.right
  · obtain ⟨rfl, rfl⟩ | ⟨rfl | rfl, rfl⟩ := byte_width_cases t w hw <;> decide

/-- An indicator other than BYTE is a segment of its own (rule R51). -/
theorem readSegment_indicator (sa : SaCode) (w : Nat) (i : Instr) (bs rest : Bits)
    (hd : decodeBits sa bs = .ok (i, rest)) (hi : i ≠ .byte) : readSegment sa w bs = .ok (.indicator i, rest) := by
  rw [readSegment, hd]
  cases i with
  | byte => exact absurd rfl hi
  | _ => rfl

/-- After BYTE a segment holds a COUNT field and the data it counts (rule R49). -/
theorem readSegment_bytes (sa : SaCode) (w : Nat) (bs count tail rest : Bits) (data : List Byte)
    (hd : decodeBits sa bs = .ok (.byte, count ++ tail)) (hw : count.length = w)
    (hr : readBytes (natOfBits count) tail = some (data, rest)) : readSegment sa w bs = .ok (.bytes data, rest) := by
  have hlen : ¬(count ++ tail).length < w := by rw [List.length_append]; omega
  simp only [readSegment, hd, if_neg hlen, List.take_left' hw, List.drop_left' hw, hr]

/-- Settles O4, by the two forms of a segment: a lone indicator, and BYTE with the count and data read back. -/
theorem segmentReadInvertsEncode : Obligations.SegmentReadInvertsEncode := by
  intro sa w g rest hwf
  cases g with
  | indicator i =>
    obtain ⟨hi, hne⟩ : i.wellFormed = true ∧ i ≠ .byte := by simpa [segmentWellFormed] using hwf
    exact readSegment_indicator sa w i _ rest (decodeBits_encodeBits sa i rest hi) hne
  | bytes data =>
    have hfit : data.length < 2 ^ w := by simpa [segmentWellFormed] using hwf
    have hbits : encodeSegment sa w (.bytes data) ++ rest =
        encodeBits sa .byte ++ (bitsOfNat w data.length ++ (bitsOfBytes data ++ rest)) := by
      simp only [encodeSegment, byteSegmentBits, List.append_assoc]
    have hread : readBytes (natOfBits (bitsOfNat w data.length)) (bitsOfBytes data ++ rest) = some (data, rest) := by
      rw [natOfBits_bitsOfNat w _ hfit, readBytes_bits]
    rw [hbits]
    exact readSegment_bytes sa w _ _ _ rest data (decodeBits_encodeBits sa .byte _ rfl) (length_bitsOfNat w _) hread

end Sys2Proof.Machine

/-! PROOFS. The statements of 40_field_width_rom: the supported set, the width tables by version, and the ROM's words. -/

namespace Sys2Proof.Machine

/-! ## The supported set (40_field_width_rom rule R61) -/

/-- Settles O10, by the modes: each row of `supported` is in the set of rule R61 or not. -/
theorem supportedSetIsExact : Obligations.SupportedSetIsExact := by
  intro m
  cases m <;> simp [supported]

/-! ## The two widths (40_field_width_rom rules R62 to R64) -/

/-- No mode has a length width at tier NONE (rule R62). -/
@[simp] theorem lengthFieldBits_none (m : Mode) : lengthFieldBits m .none = none := by cases m <;> rfl

/-- The modes with data characters. -/
theorem isSome_perCharacterBits (m : Mode) :
    (perCharacterBits m).isSome = true ↔ m = .num ∨ m = .alnum ∨ m = .byte ∨ m = .kanji := by
  cases m <;> simp [perCharacterBits]

/-- At a valid tier the characters are counted exactly where there are any. -/
theorem isSome_lengthFieldBits (m : Mode) (t : Tier) (ht : t ≠ .none) :
    (lengthFieldBits m t).isSome = (perCharacterBits m).isSome := by
  cases t with
  | none => exact absurd rfl ht
  | small | medium | large => cases m <;> rfl

/-- Settles O8, from the tables of the two widths. -/
theorem widthsPresentTogether : Obligations.WidthsPresentTogether :=
  fun m => ⟨isSome_lengthFieldBits m, lengthFieldBits_none m, isSome_perCharacterBits m⟩

/-! ## The widths by version (40_field_width_rom rules R59, R62, R63) -/

theorem tier_medium_iff (v : BitVec 6) : tier v = .medium ↔ 10 ≤ v.toNat ∧ v.toNat ≤ 26 := by
  unfold tier
  split_ifs <;> simp <;> omega

theorem tier_large_iff (v : BitVec 6) : tier v = .large ↔ 27 ≤ v.toNat ∧ v.toNat ≤ 40 := by
  unfold tier
  split_ifs <;> simp <;> omega

/-- Settles O9: the version's range fixes its tier, and the table at that tier is read off. -/
theorem widthsByVersion : Obligations.WidthsByVersion := by
  intro m v
  refine ⟨fun h => ?_, fun h => ?_, fun h => ?_, fun h => ?_, ?_⟩
  · rw [(tier_small_iff v).2 h]; cases m <;> rfl
  · rw [(tier_medium_iff v).2 h]; cases m <;> rfl
  · rw [(tier_large_iff v).2 h]; cases m <;> rfl
  · rw [(tier_none_iff v).2 h, lengthFieldBits_none]
  · cases m <;> rfl

/-! ## The words of the ROM (40_field_width_rom rule R65) -/

@[simp] theorem romLV_romWordOf (lw cw : Option Nat) : romLV (romWordOf lw cw) = lw.isSome := by
  rw [romLV, romWordOf, BitVec.getLsbD_append, BitVec.getLsbD_append, BitVec.getLsbD_append]
  simp

@[simp] theorem romLW_romWordOf (lw cw : Option Nat) : romLW (romWordOf lw cw) = BitVec.ofNat 5 (lw.getD 0) := by
  rw [romLW, romWordOf, BitVec.extractLsb'_append_eq_of_le (by decide), BitVec.extractLsb'_append_eq_of_le (by decide)]
  exact BitVec.extractLsb'_append_eq_right

@[simp] theorem romCV_romWordOf (lw cw : Option Nat) : romCV (romWordOf lw cw) = cw.isSome := by
  rw [romCV, romWordOf, BitVec.getLsbD_append, BitVec.getLsbD_append]
  simp

@[simp] theorem romCW_romWordOf (lw cw : Option Nat) : romCW (romWordOf lw cw) = BitVec.ofNat 4 (cw.getD 0) :=
  BitVec.extractLsb'_append_eq_right

/-- A length width fits the 5 bits of LW. -/
theorem lengthFieldBits_getD_lt (m : Mode) (t : Tier) : (lengthFieldBits m t).getD 0 < 32 := by
  cases m <;> cases t <;> decide

/-- A character width fits the 4 bits of CW. -/
theorem perCharacterBits_getD_lt (m : Mode) : (perCharacterBits m).getD 0 < 16 := by
  cases m <;> decide

/-- Settles O7: the word at a code is made of its mode's two widths, which fit their fields. -/
theorem romHoldsTheWidths : Obligations.RomHoldsTheWidths := by
  intro sa c t
  rw [rom_at]
  cases modeFromCode sa c with
  | none => rfl
  | some m => simp [lengthFieldBits_getD_lt, perCharacterBits_getD_lt]

end Sys2Proof.Machine

/-! PROOFS. The statements of 41_segment_dispatch: the host after the start, the indicators, the life cycle, the end of a
decode, and the source's recursive decode. -/

namespace Sys2Proof.Machine

/-! ## The host's inputs after the start (41_segment_dispatch rule R86) -/

/-- A clock with `rst = 0` is the block's step, then the host's move. -/
theorem step_of_blockStep (s u : State) (hr : s.ports.rst = false) (hu : blockStep s = .next u) :
    step s = .next (hostClock u) := by
  rw [step_of_run s hr, hu, onNext_next]

@[simp] theorem blockPart_st (s : State) : (blockPart s).st = s.st := rfl

/-- One step outside IDLE leaves two machines alike that differ in their hosts only, and outside IDLE. -/
theorem step_of_blockPart (s t : State) (hst : s.st ≠ .idle) (hs : s.ports.rst = false) (ht : t.ports.rst = false)
    (hb : blockPart s = blockPart t) :
    ∃ s' t', step s = .next s' ∧ step t = .next t' ∧ blockPart s' = blockPart t' ∧ s'.st ≠ .idle := by
  obtain ⟨u, v, hu, hv, huv⟩ := blockStep_of_blockPart s t hst hb
  have hust : u.st ≠ .idle := blockStep_not_idle s u hst hu
  have hvst : v.st ≠ .idle := by rwa [← blockPart_st v, ← huv, blockPart_st]
  refine ⟨hostClock u, hostClock v, step_of_blockStep s u hs hu, step_of_blockStep t v ht hv, ?_, hust⟩
  rw [blockPart_hostClock u hust, blockPart_hostClock v hvst, huv]

/-- Settles O27, by induction on the number of steps, each of which keeps the two machines alike. -/
theorem hostInputsIgnoredAfterStart : Obligations.HostInputsIgnoredAfterStart := by
  intro n
  induction n with
  | zero => exact fun s t hst _ _ hb => ⟨s, t, rfl, rfl, hb, hst⟩
  | succ n ih =>
    intro s t hst hs ht hb
    obtain ⟨u, v, hu, hv, huv, hust⟩ := step_of_blockPart s t hst (noReset_rst s hs) (noReset_rst t ht) hb
    obtain ⟨s', t', hs', ht', hb', hst'⟩ := ih u v hust (noReset_step s u hs hu) (noReset_step t v ht hv) huv
    exact ⟨s', t', (run_succ n s u hu).trans hs', (run_succ n t v hv).trans ht', hb', hst'⟩

/-! ## The mode indicators (41_segment_dispatch rules R71 to R81) -/

/-- In MODE a clock runs the instruction the stream holds, then the host moves. -/
theorem step_of_exec (i : Instr) (s u : State) (rest : Bits) (hst : s.st = .mode) (hr : s.ports.rst = false)
    (hd : decodeBits s.params.saCode (s.stream.drop s.off) = .ok (i, rest)) (he : exec i s = .next u) :
    step s = .next (hostClock u) := by
  rw [stepRunsTheDecodedInstruction s i rest hst hr hd, he, onNext_next]

/-- What `exec` makes of an instruction is what its own code in the stream does in MODE. -/
theorem indicatorRuns_of_exec (i : Instr) (s t : State) (hwf : i.wellFormed = true) (he : exec i s = .next t) :
    IndicatorRuns i (encodeBits s.params.saCode i) s t := by
  refine ⟨he, fun rest hst hr hd => step_of_exec i s t rest hst hr ?_ he⟩
  rw [hd, decodeBits_encodeBits _ i rest hwf]

/-- An indicator of code `c` that stops the decode consumes 4 bits and writes MODE_R, STOP_R and ST. -/
theorem indicatorRuns_stop (i : Instr) (r : StopReason) (s : State) (c : Code) (hwf : i.wellFormed = true)
    (hc : encode s.params.saCode i = c) (he : exec i s = stopOnIndicator i r s) :
    IndicatorRuns i (bitsOfNat 4 c.toNat) s { s with off := s.off + 4, modeR := c, stopR := r, st := .done } := by
  subst hc
  exact indicatorRuns_of_exec i s _ hwf he

/-- BYTE at a valid tier consumes 4 bits, latches both widths and goes to LEN. -/
theorem indicatorRuns_latch (w : BitVec 5) (s : State) (he : exec .byte s = .next (latchWidths .byte w 8 s)) :
    IndicatorRuns .byte [false, true, false, false] s
      { s with off := s.off + 4, modeR := 0b0100, lenwR := w, chwR := 8, st := .len } := by
  have h := indicatorRuns_of_exec .byte s _ rfl he
  rwa [encodeBits, latchWidths, takeIndicator, byte_code] at h

/-- Settles O11: END is a stop at code 0000. -/
theorem endStopsTheDecode : Obligations.EndStopsTheDecode :=
  fun s => indicatorRuns_stop .endMsg .endMsg s 0b0000 rfl (endMsg_code _) rfl

/-- Settles O12: NUM is a stop at code 0001. -/
theorem numStopsUnsupported : Obligations.NumStopsUnsupported :=
  fun s => indicatorRuns_stop .num .unsupported s 0b0001 rfl (num_code _) rfl

/-! The codes of the five other unsupported modes: the standard one, or 0011 where SA takes it (30_encoding rule R55). -/

theorem alnum_code (sa : SaCode) : encode sa .alnum = if sa = .c2 then 0b0011 else 0b0010 := by cases sa <;> rfl

theorem fnc1_1_code (sa : SaCode) : encode sa .fnc1_1 = if sa = .c5 then 0b0011 else 0b0101 := by cases sa <;> rfl

theorem eci_code (sa : SaCode) : encode sa .eci = if sa = .c7 then 0b0011 else 0b0111 := by cases sa <;> rfl

theorem kanji_code (sa : SaCode) : encode sa .kanji = if sa = .c8 then 0b0011 else 0b1000 := by cases sa <;> rfl

theorem fnc1_2_code (sa : SaCode) : encode sa .fnc1_2 = if sa = .c9 then 0b0011 else 0b1001 := by cases sa <;> rfl

/-- Settles O13: each of the five is a stop at its code. -/
theorem otherUnsupportedModesStop : Obligations.OtherUnsupportedModesStop :=
  fun s =>
    ⟨indicatorRuns_stop .alnum .unsupported s _ rfl (alnum_code _) rfl,
      indicatorRuns_stop .fnc1_1 .unsupported s _ rfl (fnc1_1_code _) rfl,
      indicatorRuns_stop .eci .unsupported s _ rfl (eci_code _) rfl,
      indicatorRuns_stop .kanji .unsupported s _ rfl (kanji_code _) rfl,
      indicatorRuns_stop .fnc1_2 .unsupported s _ rfl (fnc1_2_code _) rfl⟩

/-- Settles O14: SA's arm is the Take of its indicator, then MODE. -/
theorem saIsSkipped : Obligations.SaIsSkipped :=
  fun s => indicatorRuns_of_exec .sa s _ rfl rfl

/-- A version of 10 to 40 is of tier MEDIUM or LARGE (40_field_width_rom rule R59). -/
theorem tier_medium_or_large (v : BitVec 6) (h : 10 ≤ v.toNat ∧ v.toNat ≤ 40) : tier v = .medium ∨ tier v = .large := by
  rw [tier_medium_iff, tier_large_iff]; omega

/-- Settles O15: the version fixes the tier, and BYTE's arm at that tier is known. -/
theorem byteSelectsWidthsOrStops : Obligations.ByteSelectsWidthsOrStops := by
  intro s
  refine ⟨fun h => ?_, fun h => ?_, fun h => ?_⟩
  · have ht : tier s.verR = .small := (tier_small_iff _).2 h
    exact indicatorRuns_latch 8 s ((execByte_eq s).trans (by rw [ht]))
  · obtain ht | ht := tier_medium_or_large _ h
    · exact indicatorRuns_latch 16 s ((execByte_eq s).trans (by rw [ht]))
    · exact indicatorRuns_latch 16 s ((execByte_eq s).trans (by rw [ht]))
  · have ht : tier s.verR = .none := (tier_none_iff _).2 h
    exact indicatorRuns_stop .byte .badVersion s 0b0100 rfl (byte_code _)
      ((execByte_eq s).trans (by rw [ht, stopOnIndicator_eq]))

/-- Settles O16: each of the seven codes is its own UNDEF, a stop. -/
theorem undefinedCodesStop : Obligations.UndefinedCodesStop :=
  fun s c hc => indicatorRuns_stop (.undef c) .undefined s c (List.contains_iff_mem.2 hc) rfl rfl

/-- Settles O17, by the three forms of an instruction: a stop, SA, or a BYTE that goes on to LEN. -/
theorem indicatorFrame : Obligations.IndicatorFrame := by
  intro i s t he
  obtain ⟨r, _, e⟩ | ⟨rfl, e⟩ | ⟨rfl, w, _, _, e⟩ := exec_cases i s <;> rw [e] at he <;> cases he <;>
    exact ⟨rfl, by simp⟩

/-- A code with a mode is that mode's instruction (rule R71). -/
theorem decodeCode_of_mode (sa : SaCode) (c : Code) (m : Mode) (h : modeFromCode sa c = some m) :
    decodeCode sa c = instrOfMode m := by
  rw [decodeCode, h]

/-- A code with no mode is UNDEF (rule R81). -/
theorem decodeCode_of_none (sa : SaCode) (c : Code) (h : modeFromCode sa c = none) : decodeCode sa c = .undef c := by
  rw [decodeCode, h]

/-- Every instruction consumes 4 bits, writes its code to MODE_R and leaves the fault cause (rule R71). -/
theorem exec_take (i : Instr) (s t : State) (he : exec i s = .next t) :
    t.off = s.off + 4 ∧ t.modeR = encode s.params.saCode i ∧ t.fcauseR = s.fcauseR ∧ t.st ≠ .idle := by
  obtain ⟨_, _, e⟩ | ⟨rfl, e⟩ | ⟨rfl, _, _, _, e⟩ := exec_cases i s <;> rw [e] at he <;> cases he <;> simp

theorem exists_exec (i : Instr) (s : State) : ∃ u, exec i s = .next u := by
  obtain ⟨_, _, e⟩ | ⟨_, e⟩ | ⟨_, _, _, _, e⟩ := exec_cases i s <;> exact ⟨_, e⟩

/-- Settles O19: the bits taken name a mode or none, and each mode's arm is known. -/
theorem modeFetchTakesThenDispatches : Obligations.ModeFetchTakesThenDispatches := by
  intro s hst hr hl
  obtain ⟨u, he⟩ := exists_exec (decodeCode s.params.saCode (BitVec.ofNat 4 (takeValue 4 s))) s
  have hs : step s = .next (hostClock u) := step_of_exec _ s u _ hst hr (fetch_of_avail s hl) he
  obtain ⟨hoff, hmode, hcause, hni⟩ := exec_take _ s u he
  rw [encode_decodeCode] at hmode
  refine ⟨hostClock u, hs, (hostClock_off u hni).trans hoff, fun k hk => ?_, hcause, ?_⟩
  · rw [getElem?_stream_takeValue 4 k s hl hk, hostClock_modeR, hmode, BitVec.getMsbD_eq_getLsbD, BitVec.getLsbD_ofNat]
    have hk' : 3 - k < 4 := by omega
    simp [hk, hk']
  · simp only [hostClock_modeR, hostClock_st, hostClock_stopR, hostClock_lenwR, hostClock_chwR, hmode]
    cases hm : modeFromCode s.params.saCode (BitVec.ofNat 4 (takeValue 4 s)) with
    | none =>
      rw [decodeCode_of_none _ _ hm] at he
      cases he
      exact ⟨rfl, rfl⟩
    | some m =>
      rw [decodeCode_of_mode _ _ m hm] at he
      cases m with
      | byte =>
        cases (execByte_eq s).symm.trans he
        cases ht : tier s.verR <;> simp [supported, lengthFieldBits, perCharacterBits]
      | sa | endMsg | num | alnum | fnc1_1 | eci | kanji | fnc1_2 =>
        cases he
        simp [supported]

/-! ## The life cycle (41_segment_dispatch rules R68 to R70, R82, R83) -/

theorem blockStep_of_no_bits (s : State) (hst : s.st = .mode) (hl : s.stream.length < s.off + 4) :
    blockStep s = .next (noBits s) := by
  simp only [blockStep, hst, modeStep_of_not_avail s hl]

theorem blockStep_of_idle (s : State) (hst : s.st = .idle) :
    blockStep s = .next (if s.ports.start then startDecode s else s) := by
  simp only [blockStep, hst, idleStep]

/-- Settles O20: the fetch finds fewer than 4 bits. -/
theorem noBitsStopsUnread : Obligations.NoBitsStopsUnread :=
  fun s hst hr hl => step_of_blockStep s _ hr (blockStep_of_no_bits s hst hl)

/-- Settles O21: the step of IDLE with `start = 1` is START, and IDLE takes no bit. -/
theorem startLatchesTheVersion : Obligations.StartLatchesTheVersion :=
  fun s hst hr hstart =>
    ⟨step_of_blockStep s _ hr ((blockStep_of_idle s hst).trans (by rw [if_pos hstart]; rfl)), curTake_of_idle s hst⟩

/-- Settles O22: the step of IDLE with `start = 0` changes nothing, and IDLE takes no bit. -/
theorem idleWaitsForStart : Obligations.IdleWaitsForStart :=
  fun s hst hr hstart =>
    ⟨step_of_blockStep s s hr ((blockStep_of_idle s hst).trans (by rw [if_neg (by simp [hstart])])),
      curTake_of_idle s hst⟩

theorem curTake_of_ended (s : State) (h : ended s = true) : curTake s = false := by
  obtain hst | hst := (ended_iff s).1 h <;> simp [curTake, curN, hst]

/-- Settles O23: after its end a decode waits for a reset. -/
theorem terminalStatesHold : Obligations.TerminalStatesHold := by
  intro s hst hr
  have hend : ended s = true := (ended_iff s).2 hst
  exact ⟨step_of_ended s hend hr, curTake_of_ended s hend⟩

/-! ## A decode at an invalid version (41_segment_dispatch rule R76) -/

/-- The launch step is START, then the host's move. -/
theorem Launch.step_eq {s : State} (h : Launch s) : step s = .next (hostClock (startDecode s)) :=
  (startLatchesTheVersion s h.idle (noReset_rst s h.noReset) h.start).1

/-- Before the start no cell is written (10_state rules R22, R32). -/
theorem Launch.buf_eq_nil {s : State} (h : Launch s) : s.buf = [] := by
  have hcells := h.inv.cells
  rwa [h.inv.olen_of_idle h.idle, List.range_zero, List.map_eq_nil_iff] at hcells

/-- What a decode at an invalid version looks like after its start. -/
structure ReadsIndicatorsOnly (s : State) : Prop where
  noReset : noReset s = true
  st : s.st = .mode ∨ s.st = .done
  tier : tier s.verR = .none
  olen : s.olen = 0
  buf : s.buf = []

/-- An indicator at an invalid version stops the decode or is SA: BYTE stops BAD_VERSION. -/
theorem exec_of_tier_none (i : Instr) (s t : State) (ht : tier s.verR = .none) (he : exec i s = .next t) :
    (t.st = .mode ∨ t.st = .done) ∧ t.verR = s.verR ∧ t.olen = s.olen ∧ t.buf = s.buf := by
  obtain ⟨_, _, e⟩ | ⟨_, e⟩ | ⟨_, _, hw, _⟩ := exec_cases i s
  · rw [e] at he; cases he; simp
  · rw [e] at he; cases he; simp
  · rw [ht] at hw; cases hw

/-- A clock of such a decode stops it or stays in MODE, and writes neither VER_R nor the buffer. -/
theorem ReadsIndicatorsOnly.of_blockStep {s t : State} (h : ReadsIndicatorsOnly s) (hs : blockStep s = .next t) :
    (t.st = .mode ∨ t.st = .done) ∧ t.verR = s.verR ∧ t.olen = s.olen ∧ t.buf = s.buf := by
  obtain hst | hst := h.st
  · by_cases hl : s.off + 4 ≤ s.stream.length
    · rw [blockStep_of_fetch s _ _ hst (fetch_of_avail s hl)] at hs
      exact exec_of_tier_none _ s t h.tier hs
    · rw [blockStep_of_no_bits s hst (by omega)] at hs
      cases hs
      simp
  · simp only [blockStep, hst, doneHold] at hs
    cases hs
    simp [hst]

theorem ReadsIndicatorsOnly.of_step {s t : State} (h : ReadsIndicatorsOnly s) (hs : step s = .next t) :
    ReadsIndicatorsOnly t := by
  obtain ⟨hr, _⟩ | ⟨_, u, hu, rfl⟩ := step_cases s t hs
  · rw [noReset_rst s h.noReset] at hr; cases hr
  · obtain ⟨hst, hver, holen, hbuf⟩ := h.of_blockStep hu
    exact ⟨noReset_step s _ h.noReset hs, hst, hver ▸ h.tier, holen.trans h.olen, hbuf.trans h.buf⟩

theorem Launch.readsIndicatorsOnly {s : State} (h : Launch s) (ht : tier s.ports.verIn = .none) :
    ReadsIndicatorsOnly (hostClock (startDecode s)) where
  noReset := noReset_step s _ h.noReset h.step_eq
  st := .inl rfl
  tier := ht
  olen := startDecode_olen s
  buf := h.buf_eq_nil

/-- Settles O54: the launch state has written nothing, and after the start only indicators are read. -/
theorem invalidVersionAppendsNothing : Obligations.InvalidVersionAppendsNothing := by
  intro n s t h htier hrun
  cases n with
  | zero =>
    cases hrun
    simp [h.inv.olen_of_idle h.idle, h.idle, h.buf_eq_nil, Memory.read]
  | succ n =>
    rw [run_succ n s _ h.step_eq] at hrun
    have ht : ReadsIndicatorsOnly t :=
      run_keeps ReadsIndicatorsOnly (fun _ _ => ReadsIndicatorsOnly.of_step) n _ t (h.readsIndicatorsOnly htier) hrun
    obtain hst | hst := ht.st <;> simp [ht.olen, ht.buf, hst, Memory.read]

/-! ## The end of a decode (41_segment_dispatch rule R84) -/

theorem busyFlag_iff (s : State) : busyFlag s = true ↔ s.st = .mode ∨ s.st = .len ∨ s.st = .char := by simp [busyFlag]

/-- How far a step brings a decode: an Append is paid with 8 bits, and a step that does not end the decode takes 4 bits
at least. -/
structure Progress (s t : State) : Prop where
  bits : 8 * t.olen + remaining t ≤ 8 * s.olen + remaining s
  ends_or_takes : ended t = true ∨ (busyFlag t = true ∧ remaining t + 4 ≤ remaining s)

theorem Progress.of_ended {s t : State} (h : ended t = true) (holen : t.olen = s.olen) (hle : remaining t ≤ remaining s) :
    Progress s t :=
  ⟨by omega, .inl h⟩

/-- A clock of a busy block that meets the invariant makes progress. -/
theorem progress_blockStep (s t : State) (hinv : Inv s) (hbusy : busyFlag s = true) (hs : blockStep s = .next t) :
    Progress s t := by
  rw [busyFlag_iff] at hbusy
  obtain ⟨t', ht', hc⟩ := blockStep_cases s
  rw [hs] at ht'; cases ht'
  obtain ⟨hst, _⟩ | ⟨hst, _⟩ | ⟨_, _, rfl⟩ | ⟨_, hl, he⟩ | ⟨_, _, rfl⟩ | ⟨hst, hl, rfl⟩ | ⟨_, _, rfl⟩ |
    ⟨_, _, _, rfl⟩ | ⟨hst, hl, hroom, rfl⟩ | ⟨hst, _⟩ := hc
  · simp [hst] at hbusy -- START
  · simp [hst] at hbusy -- IDLE HOLD
  · exact .of_ended rfl rfl le_rfl -- MODE, NO BITS
  · -- MODE FETCH: 4 bits, and ST is DONE, MODE or LEN
    obtain ⟨hoff, _⟩ := exec_take _ s t he
    obtain ⟨_, hst, _, _, _, _, holen, _, hstream, _⟩ := indicatorFrame _ s t he
    have hrem : remaining t + 4 = remaining s := by simp only [remaining, hoff, hstream]; omega
    refine ⟨by omega, ?_⟩
    obtain hst | ⟨_, hst⟩ | ⟨_, hst⟩ := hst
    · exact .inl (by simp [ended_iff, hst])
    · exact .inr ⟨by simp [busyFlag_iff, hst], by omega⟩
    · exact .inr ⟨by simp [busyFlag_iff, hst], by omega⟩
  · exact .of_ended rfl rfl le_rfl -- LEN UNDERRUN
  · -- LEN READ: a count of 8 or 16 bits
    have hw : lenWidth s = 8 ∨ lenWidth s = 16 := (hinv.len hst).lenWidth_cases
    have hrem : remaining (lenRead s) + lenWidth s = remaining s := by
      simp only [remaining, lenRead_off, lenRead_stream]; omega
    refine ⟨by rw [lenRead_olen]; omega, .inr ⟨?_, by omega⟩⟩
    rw [busyFlag_iff, lenRead_st]; split <;> simp
  · exact .of_ended rfl rfl le_rfl -- CHAR UNDERRUN
  · exact .of_ended rfl rfl le_rfl -- CHAR OVERFLOW
  · -- CHAR APPEND: a character of 8 bits
    have hw : charWidth s = 8 := (hinv.char hst).1.charWidth_eq
    have hrem : remaining (charAppend s) + 8 = remaining s := by
      simp only [remaining, charAppend_off, charAppend_stream]; omega
    refine ⟨by rw [charAppend_olen_of_room s hroom]; omega, .inr ⟨?_, by omega⟩⟩
    rw [busyFlag_iff, charAppend_st]; split <;> simp
  · obtain hst | hst := hst <;> simp [hst] at hbusy -- DONE HOLD, FAULT HOLD

theorem remaining_hostClock (s : State) (hst : s.st ≠ .idle) : remaining (hostClock s) = remaining s := by
  simp only [remaining, hostClock_stream s hst, hostClock_off s hst]

theorem exists_step_progress (s : State) (hinv : Inv s) (hr : s.ports.rst = false) (hbusy : busyFlag s = true) :
    ∃ t, step s = .next t ∧ Progress s t := by
  obtain ⟨u, hu, _⟩ := blockStep_cases s
  obtain ⟨hbits, hend⟩ := progress_blockStep s u hinv hbusy hu
  have hst : s.st ≠ .idle := by rintro hst; simp [busyFlag, hst] at hbusy
  have hrem : remaining (hostClock u) = remaining u := remaining_hostClock u (blockStep_not_idle s u hst hu)
  exact ⟨hostClock u, step_of_blockStep s u hr hu, by rwa [hrem, hostClock_olen], by rwa [hrem]⟩

/-- A busy block ends within `floor(rem / 4) + 1` steps, each of which takes 4 bits or is the last. -/
theorem exists_run_ended (n : Nat) (s : State) (hinv : Inv s) (hn : noReset s = true) (hbusy : busyFlag s = true)
    (hrem : remaining s / 4 < n) :
    ∃ k t, k ≤ n ∧ run k s = .next t ∧ ended t = true ∧ 8 * t.olen + remaining t ≤ 8 * s.olen + remaining s := by
  induction n generalizing s with
  | zero => omega
  | succ n ih =>
    obtain ⟨t, hs, hbits, hend | ⟨hbusy', hle⟩⟩ := exists_step_progress s hinv (noReset_rst s hn) hbusy
    · exact ⟨1, t, by omega, run_succ 0 s t hs, hend, hbits⟩
    · obtain ⟨k, v, hk, hv, hend, hbits'⟩ :=
        ih t (everyStepKeepsInv s t hinv hs) (noReset_step s t hn hs) hbusy' (by omega)
      exact ⟨k + 1, v, by omega, (run_succ k s t hs).trans hv, hend, by omega⟩

/-- Settles O51: the start step, then the steps of the busy block. -/
theorem decodeEndsWithinTheBound : Obligations.DecodeEndsWithinTheBound := by
  intro s h
  have hrem : remaining (hostClock (startDecode s)) = remaining s := remaining_hostClock (startDecode s) (by simp)
  obtain ⟨k, t, hk, ht, hend, hbits⟩ := exists_run_ended (remaining s / 4 + 1) (hostClock (startDecode s))
    (everyStepKeepsInv s _ h.inv h.step_eq) (noReset_step s _ h.noReset h.step_eq) rfl (by omega)
  rw [hrem, hostClock_olen, startDecode_olen] at hbits
  exact ⟨k + 1, t, by omega, (run_succ k s _ h.step_eq).trans ht, hend, by omega⟩

/-! ## The readers of a stream -/

/-- An indicator takes 4 bits. -/
theorem length_of_decodeBits (sa : SaCode) (bs rest : Bits) (i : Instr) (hd : decodeBits sa bs = .ok (i, rest)) :
    bs.length = rest.length + 4 := by
  obtain ⟨_, rfl⟩ := decodeBits_ok sa bs rest i hd
  rw [List.length_append, encodeBits, length_bitsOfNat, Nat.add_comm]

theorem drop_four_of_decodeBits (sa : SaCode) (bs rest : Bits) (i : Instr) (hd : decodeBits sa bs = .ok (i, rest)) :
    bs.drop 4 = rest := by
  obtain ⟨_, rfl⟩ := decodeBits_ok sa bs rest i hd
  exact List.drop_left' (length_bitsOfNat 4 _)

/-- Each byte read takes 8 bits. -/
theorem length_of_readBytes (n : Nat) (bs rest : Bits) (data : List Byte) (h : readBytes n bs = some (data, rest)) :
    bs.length = 8 * data.length + rest.length := by
  induction n generalizing bs data with
  | zero => cases h; simp
  | succ n ih =>
    rw [readBytes] at h
    split at h
    · cases h
    · simp only [Option.map_eq_some_iff, Prod.exists, Prod.mk.injEq] at h
      obtain ⟨data', _, hr, rfl, rfl⟩ := h
      have hlen := ih _ data' hr
      rw [List.length_drop] at hlen
      rw [List.length_cons]
      omega

/-- What follows a BYTE indicator: a COUNT field of `w` bits and the data it counts (30_encoding rule R49). -/
def readCounted (w : Nat) (bs : Bits) : Option (List Byte × Bits) :=
  if bs.length < w then none else readBytes (natOfBits (bs.take w)) (bs.drop w)

theorem length_of_readCounted (w : Nat) (bs rest : Bits) (data : List Byte) (h : readCounted w bs = some (data, rest)) :
    rest.length ≤ bs.length := by
  obtain ⟨_, h⟩ := Option.ite_none_left_eq_some.1 h
  have hlen := length_of_readBytes _ _ rest data h
  rw [List.length_drop] at hlen
  omega

/-! ## The source's decode, one segment at a time (41_segment_dispatch rule R71) -/

theorem sourceDecode_short (sa : SaCode) (t : Tier) (fuel : Nat) (bs : Bits) (out : List Byte) (h : bs.length < 4) :
    sourceDecode sa t (fuel + 1) bs out = some (out, bs.length) := by
  rw [sourceDecode, decodeBits_of_lt_four sa bs h]

theorem sourceDecode_sa (sa : SaCode) (t : Tier) (fuel : Nat) (bs rest : Bits) (out : List Byte)
    (hd : decodeBits sa bs = .ok (.sa, rest)) :
    sourceDecode sa t (fuel + 1) bs out = sourceDecode sa t fuel rest out := by
  rw [sourceDecode, hd]

theorem sourceDecode_byte (sa : SaCode) (t : Tier) (w fuel : Nat) (bs rest : Bits) (out : List Byte)
    (hd : decodeBits sa bs = .ok (.byte, rest)) (hw : lengthFieldBits .byte t = some w) :
    sourceDecode sa t (fuel + 1) bs out =
      (readCounted w rest).bind fun r => sourceDecode sa t fuel r.2 (out ++ r.1) := by
  simp only [sourceDecode, hd, hw, readSegment, readCounted]
  split_ifs with hl
  · rfl
  · cases readBytes (natOfBits (rest.take w)) (rest.drop w) <;> rfl

/-- Any other indicator, and BYTE where the tier gives no width, ends the source's decode. -/
theorem sourceDecode_stop (sa : SaCode) (t : Tier) (fuel : Nat) (i : Instr) (bs rest : Bits) (out : List Byte)
    (hd : decodeBits sa bs = .ok (i, rest)) (hsa : i ≠ .sa) (hb : i = .byte → lengthFieldBits .byte t = none) :
    sourceDecode sa t (fuel + 1) bs out = some (out, rest.length) := by
  cases i with
  | sa => exact absurd rfl hsa
  | byte => rw [sourceDecode, hd]; simp only [hb rfl]
  | _ => rw [sourceDecode, hd]

/-! ## The machine's instruction, in the source's terms -/

/-- Where the source's decode ends on an indicator, the machine stops. -/
theorem exec_stop (i : Instr) (s : State) (hsa : i ≠ .sa)
    (hb : i = .byte → lengthFieldBits .byte (tier s.verR) = none) :
    ∃ r, exec i s = .next (stopWith r (takeIndicator i s)) := by
  obtain ⟨r, _, e⟩ | ⟨hi, _⟩ | ⟨hi, w, hw, _⟩ := exec_cases i s
  · exact ⟨r, e⟩
  · exact absurd hi hsa
  · rw [hb hi] at hw; cases hw

/-- At a tier with a count width BYTE latches it and goes to LEN. -/
theorem exec_byte_latch (s : State) (w : Nat) (hw : lengthFieldBits .byte (tier s.verR) = some w) :
    ∃ lw : BitVec 5, lw.toNat = w ∧ exec .byte s = .next (latchWidths .byte lw 8 s) := by
  obtain ⟨ht, rfl⟩ | ⟨ht | ht, rfl⟩ := byte_width_cases _ _ hw
  · exact ⟨8, rfl, (execByte_eq s).trans (by rw [ht])⟩
  · exact ⟨16, rfl, (execByte_eq s).trans (by rw [ht])⟩
  · exact ⟨16, rfl, (execByte_eq s).trans (by rw [ht])⟩

/-! ## Runs that reach a property -/

/-- Some number of steps from `s` lead to a state with `P`. -/
def Reaches (s : State) (P : State → Prop) : Prop := ∃ k t, run k s = .next t ∧ P t

theorem Reaches.of_step {s u : State} {P : State → Prop} (hs : step s = .next u) (h : Reaches u P) : Reaches s P := by
  obtain ⟨k, t, ht, hP⟩ := h
  exact ⟨k + 1, t, (run_succ k s u hs).trans ht, hP⟩

theorem Reaches.of_next {s u : State} {P : State → Prop} (hs : step s = .next u) (hP : P u) : Reaches s P :=
  .of_step hs ⟨0, u, rfl, hP⟩

theorem Reaches.trans {s : State} {P Q : State → Prop} (h : Reaches s P) (hPQ : ∀ t, P t → Reaches t Q) :
    Reaches s Q := by
  obtain ⟨k, t, ht, hP⟩ := h
  obtain ⟨j, u, hu, hQ⟩ := hPQ t hP
  exact ⟨k + j, u, (run_add k j s t ht).trans hu, hQ⟩

/-! ## A state of the machine as a point of the source's decode -/

/-- `s` stands for a source's decode that has the bits `bs` before it and the bytes `out` behind it, with room for what
the bits can hold. -/
structure Represents (sa : SaCode) (t : Tier) (bs : Bits) (out : List Byte) (s : State) : Prop where
  noReset : noReset s = true
  saCode : s.params.saCode = sa
  tier : tier s.verR = t
  stream : s.stream.drop s.off = bs
  olen : s.olen = out.length
  cells : ∀ a < out.length, s.buf.read a = out[a]?
  room : out.length + bs.length / 8 ≤ s.params.bufCap

/-- The cells below `OLEN` are the bytes they hold one by one. -/
theorem cellsBelow_eq_some (m : Memory) (bs : List Byte) (h : ∀ a < bs.length, m.read a = bs[a]?) :
    cellsBelow m bs.length = some bs := by
  induction bs using List.reverseRecOn with
  | nil => rfl
  | append_singleton bs b ih =>
    have hinit : cellsBelow m bs.length = some bs := ih fun a ha => by
      rw [h a (by rw [List.length_append]; omega), List.getElem?_append_left ha]
    have hlast : m.read bs.length = some b := by simpa using h bs.length (by simp)
    rw [List.length_append, List.length_singleton, cellsBelow, hinit, hlast]

namespace Represents

variable {sa : SaCode} {t : Tier} {bs rest : Bits} {out : List Byte} {s u : State}

theorem remaining_eq (h : Represents sa t bs out s) : remaining s = bs.length := by
  rw [← h.stream, Machine.remaining_eq]

/-- A step that appends nothing represents the same bytes before the bits it leaves. -/
theorem of_step (h : Represents sa t bs out s) (hs : step s = .next (hostClock u)) (hst : u.st ≠ .idle)
    (hparams : u.params = s.params) (hver : u.verR = s.verR) (holen : u.olen = s.olen)
    (hread : ∀ a, u.buf.read a = s.buf.read a) (hstream : u.stream.drop u.off = rest) (hle : rest.length ≤ bs.length) :
    Represents sa t rest out (hostClock u) where
  noReset := noReset_step s _ h.noReset hs
  saCode := by rw [hostClock_params, hparams, h.saCode]
  tier := by rw [hostClock_verR, hver, h.tier]
  stream := by rw [hostClock_stream u hst, hostClock_off u hst, hstream]
  olen := by rw [hostClock_olen, holen, h.olen]
  cells a ha := by rw [hostClock_buf, hread, h.cells a ha]
  room := by
    rw [hostClock_params, hparams]
    exact Nat.le_trans (Nat.add_le_add_left (Nat.div_le_div_right hle) _) h.room

/-- An instruction appends nothing and takes its 4 bits. -/
theorem of_exec {i : Instr} (h : Represents sa t bs out s) (hst : s.st = .mode)
    (hd : decodeBits sa bs = .ok (i, rest)) (he : exec i s = .next u) :
    step s = .next (hostClock u) ∧ Represents sa t rest out (hostClock u) := by
  have hd' : decodeBits s.params.saCode (s.stream.drop s.off) = .ok (i, rest) := by rw [h.saCode, h.stream, hd]
  have hs : step s = .next (hostClock u) := step_of_exec i s u rest hst (noReset_rst s h.noReset) hd' he
  have hlen : bs.length = rest.length + 4 := length_of_decodeBits sa bs rest i hd
  obtain ⟨hoff, _, _, hni⟩ := exec_take i s u he
  obtain ⟨_, _, _, _, hver, _, holen, _, hstream, hparams, hread⟩ := indicatorFrame i s u he
  have hdrop : bs.drop 4 = rest := drop_four_of_decodeBits sa bs rest i hd
  refine ⟨hs, h.of_step hs hni hparams hver holen hread ?_ (by omega)⟩
  rw [hstream, hoff, ← List.drop_drop, h.stream, hdrop]

end Represents

/-! ## A byte segment (42_byte_segment rules R87 to R92) -/

/-- Where reading a segment's fields leads the machine: to MODE with the bytes appended, or into FAULT. -/
def SegmentEnds (sa : SaCode) (t : Tier) (out : List Byte) (r : Option (List Byte × Bits)) (s : State) : Prop :=
  match r with
  | some (data, rest) => s.st = .mode ∧ Represents sa t rest (out ++ data) s
  | none => s.st = .fault

namespace Represents

variable {sa : SaCode} {t : Tier} {bs : Bits} {out : List Byte} {s : State}

/-- CHAR reads the `n` bytes of a segment (rules R89 to R91). -/
theorem reaches_of_char (h : Represents sa t bs out s) (n : Nat) (hst : s.st = .char) (h8 : charWidth s = 8)
    (hcnt : s.cnt.toNat = n) (hn : 1 ≤ n) : Reaches s (SegmentEnds sa t out (readBytes n bs)) := by
  have hrem : remaining s = bs.length := h.remaining_eq
  have hroom : s.olen + min n (remaining s / 8) ≤ s.params.bufCap := by
    have hcap := h.room
    rw [h.olen]
    omega
  have hloop := char_loop n s hst h.noReset h8 hcnt hn hroom
  rw [h.stream] at hloop
  cases hr : readBytes n bs with
  | none =>
    simp only [hr] at hloop
    obtain ⟨v, hv, hfault, _⟩ := hloop
    exact ⟨_, v, hv, hfault⟩
  | some p =>
    obtain ⟨data, rest⟩ := p
    simp only [hr] at hloop
    obtain ⟨v, hv, hmode, hnr, _, _, holen, _, hframe, hlen, hrest, hread⟩ := hloop
    have hbits : bs.length = 8 * data.length + rest.length := length_of_readBytes n bs rest data hr
    refine ⟨n, v, hv, hmode, ?_⟩
    exact {
      noReset := hnr
      saCode := by rw [hframe.params, h.saCode]
      tier := by rw [hframe.verR, h.tier]
      stream := hrest
      olen := by rw [holen, h.olen, List.length_append, hlen]
      cells := fun a ha => by
        rw [List.length_append] at ha
        rw [hread, h.olen]
        by_cases hout : a < out.length
        · rw [if_neg (by omega), h.cells a hout, List.getElem?_append_left hout]
        · rw [if_pos (by omega), List.getElem?_append_right (by omega)]
      room := by
        have hcap := h.room
        rw [hframe.params, List.length_append]
        omega }

/-- LEN reads the count, and CHAR the data it counts (rules R87, R88). -/
theorem reaches_of_len (h : Represents sa t bs out s) (w : Nat) (hst : s.st = .len) (hw : lenWidth s = w)
    (h8 : charWidth s = 8) (hpos : 0 < w) (hle : w ≤ 16) : Reaches s (SegmentEnds sa t out (readCounted w bs)) := by
  unfold readCounted
  split_ifs with hl
  · have hs := len_under s hst h.noReset (by rwa [h.stream, hw])
    exact .of_next hs rfl
  · obtain ⟨v, hs, hvst, hnr, hcnt, hchw, hoff, hstream, _, holen, hbuf, hver, hparams, _⟩ :=
      len_read s hst h.noReset w hw hpos hle (by rw [h.stream]; omega)
    rw [h.stream] at hvst hcnt
    have hv : Represents sa t (bs.drop w) out v := {
      noReset := hnr
      saCode := by rw [hparams, h.saCode]
      tier := by rw [hver, h.tier]
      stream := by rw [hstream, hoff, ← List.drop_drop, h.stream]
      olen := by rw [holen, h.olen]
      cells := by rw [hbuf]; exact h.cells
      room := by
        have hcap := h.room
        rw [hparams, List.length_drop]
        omega }
    refine .of_step hs ?_
    by_cases hz : natOfBits (bs.take w) = 0
    · rw [hz, readBytes]
      exact ⟨0, v, rfl, by rw [hvst, if_pos hz], by rwa [List.append_nil]⟩
    · exact hv.reaches_of_char _ (by rw [hvst, if_neg hz]) (hchw.trans h8) hcnt (by omega)

/-- BYTE latches its widths, and LEN and CHAR read the fields it announces (41_segment_dispatch rule R76). -/
theorem reaches_of_byte (h : Represents sa t bs out s) (w : Nat) (rest : Bits) (hst : s.st = .mode)
    (hd : decodeBits sa bs = .ok (.byte, rest)) (hw : lengthFieldBits .byte t = some w) :
    Reaches s (SegmentEnds sa t out (readCounted w rest)) := by
  obtain ⟨lw, hlw, he⟩ := exec_byte_latch s w (by rw [h.tier, hw])
  obtain ⟨hs, hu⟩ := h.of_exec hst hd he
  have hw' : w = 8 ∨ w = 16 := (byte_width_cases t w hw).imp And.right And.right
  exact .of_step hs (hu.reaches_of_len w rfl hlw rfl (by omega) (by omega))

end Represents

/-! ## The run and the source's decode -/

/-- A state in which a decode has the source's result: the bytes and the unread bits in DONE, or FAULT where it starves. -/
def HasSourceResult (r : Option (List Byte × Nat)) (s : State) : Prop :=
  match r with
  | none => s.st = .fault ∧ decodeResult s = none
  | some (bytes, unread) => s.st = .done ∧ decodeResult s = some bytes ∧ remaining s = unread

theorem HasSourceResult.ended {r : Option (List Byte × Nat)} {s : State} (h : HasSourceResult r s) : ended s = true := by
  rw [ended_iff]
  cases r with
  | none => exact .inr h.1
  | some _ => exact .inl h.1

theorem hasSourceResult_of_fault (s : State) (hst : s.st = .fault) : HasSourceResult none s :=
  ⟨hst, by simp [decodeResult, hst]⟩

namespace Represents

variable {sa : SaCode} {t : Tier} {bs : Bits} {out : List Byte} {s : State}

/-- In DONE the result of what `s` represents is the bytes behind it and the number of the bits before it. -/
theorem hasSourceResult (h : Represents sa t bs out s) (hst : s.st = .done) :
    HasSourceResult (some (out, bs.length)) s :=
  ⟨hst, by rw [decodeResult, if_pos hst, h.olen, cellsBelow_eq_some _ _ h.cells], h.remaining_eq⟩

/-- From MODE the machine computes what the source's decode gives, segment by segment. -/
theorem reaches_sourceDecode (fuel : Nat) (bs : Bits) (out : List Byte) (s : State) (h : Represents sa t bs out s)
    (hst : s.st = .mode) (hfuel : bs.length / 4 < fuel) :
    Reaches s (HasSourceResult (sourceDecode sa t fuel bs out)) := by
  induction fuel generalizing bs out s with
  | zero => omega
  | succ fuel ih =>
    by_cases hl : bs.length < 4
    · -- MODE, NO BITS
      have hs : step s = .next (hostClock (noBits s)) :=
        noBitsStopsUnread s hst (noReset_rst s h.noReset) (by rw [← h.stream, List.length_drop] at hl; omega)
      have hu := h.of_step hs (by simp) rfl rfl rfl (fun _ => rfl) h.stream le_rfl
      rw [sourceDecode_short sa t fuel bs out hl]
      exact .of_next hs (hu.hasSourceResult rfl)
    obtain ⟨i, rest, hd⟩ : ∃ i rest, decodeBits sa bs = .ok (i, rest) := ⟨_, _, decodeBits_of_four_le sa bs (by omega)⟩
    have hlen : bs.length = rest.length + 4 := length_of_decodeBits sa bs rest i hd
    by_cases hsa : i = .sa
    · -- SA is skipped
      subst hsa
      obtain ⟨hs, hu⟩ := h.of_exec hst hd rfl
      rw [sourceDecode_sa sa t fuel bs rest out hd]
      exact .of_step hs (ih rest out _ hu rfl (by omega))
    by_cases hbyte : i = .byte ∧ ∃ w, lengthFieldBits .byte t = some w
    · -- BYTE opens a segment
      obtain ⟨rfl, w, hw⟩ := hbyte
      rw [sourceDecode_byte sa t w fuel bs rest out hd hw]
      refine (h.reaches_of_byte w rest hst hd hw).trans fun v hv => ?_
      cases hr : readCounted w rest with
      | none =>
        rw [hr] at hv
        exact ⟨0, v, rfl, hasSourceResult_of_fault v hv⟩
      | some p =>
        obtain ⟨data, rest'⟩ := p
        rw [hr] at hv
        obtain ⟨hvst, hv⟩ := hv
        have hle : rest'.length ≤ rest.length := length_of_readCounted w rest rest' data hr
        exact ih rest' (out ++ data) v hv hvst (by omega)
    · -- every other indicator stops
      have hb : i = .byte → lengthFieldBits .byte t = none := fun hi =>
        Option.eq_none_iff_forall_not_mem.2 fun w hw => hbyte ⟨hi, w, hw⟩
      obtain ⟨r, he⟩ := exec_stop i s hsa (by rwa [h.tier])
      obtain ⟨hs, hu⟩ := h.of_exec hst hd he
      rw [sourceDecode_stop sa t fuel i bs rest out hd hsa hb]
      exact .of_next hs (hu.hasSourceResult rfl)

end Represents

/-- After its start a decode stands at the first indicator, with no byte behind it. -/
theorem Launch.represents {s : State} (h : Launch s) (hroom : remaining s / 8 ≤ s.params.bufCap) :
    Represents s.params.saCode (tier s.ports.verIn) (s.stream.drop s.off) [] (hostClock (startDecode s)) where
  noReset := noReset_step s _ h.noReset h.step_eq
  saCode := rfl
  tier := rfl
  stream := by rw [hostClock_stream _ (by simp), hostClock_off _ (by simp)]; rfl
  olen := startDecode_olen s
  cells := by simp
  room := by rw [← remaining_eq, List.length_nil, Nat.zero_add]; exact hroom

/-- Settles O52: the start step, then the source's decode segment by segment. -/
theorem runIsTheSourceDecode : Obligations.RunIsTheSourceDecode := by
  intro s h hroom
  have hfuel : (s.stream.drop s.off).length / 4 < remaining s / 4 + 1 := by rw [remaining_eq]; omega
  obtain ⟨k, v, hv, hres⟩ := Reaches.of_step h.step_eq
    ((h.represents hroom).reaches_sourceDecode (remaining s / 4 + 1) _ [] _ rfl hfuel)
  exact ⟨k, v, hv, hres.ended, hres⟩

end Sys2Proof.Machine

/-! PROOFS. The statements of 42_byte_segment: the steps of LEN and CHAR, the whole segment, the round trip, and a buffer with
room. -/

namespace Sys2Proof.Machine

/-! ## The steps of LEN and CHAR (42_byte_segment rules R87 to R91) -/

theorem lenStep_of_not_avail (s : State) (h : s.stream.length < s.off + lenWidth s) :
    lenStep s = raiseFault .underrunLen s := by
  simp [lenStep, (avail_false_iff _ s).2 h]

theorem lenStep_of_avail (s : State) (h : s.off + lenWidth s ≤ s.stream.length) : lenStep s = lenRead s := by
  simp [lenStep, (avail_iff _ s).2 h]

theorem charStep_of_not_avail (s : State) (h : s.stream.length < s.off + charWidth s) :
    charStep s = raiseFault .underrunChar s := by
  simp [charStep, (avail_false_iff _ s).2 h]

theorem charStep_of_full (s : State) (h : s.off + charWidth s ≤ s.stream.length) (hfull : s.params.bufCap ≤ s.olen) :
    charStep s = raiseFault .overflow s := by
  simp [charStep, (avail_iff _ s).2 h, (bufFull_iff s).2 hfull]

theorem charStep_of_room (s : State) (h : s.off + charWidth s ≤ s.stream.length) (hroom : s.olen < s.params.bufCap) :
    charStep s = charAppend s := by
  simp [charStep, (avail_iff _ s).2 h, (bufFull_false_iff s).2 hroom]

/-- A clock in LEN is the step of LEN, then the host's move. -/
theorem step_of_len (s : State) (hst : s.st = .len) (hr : s.ports.rst = false) :
    step s = .next (hostClock (lenStep s)) :=
  step_of_blockStep s _ hr (by simp only [blockStep, hst])

/-- A clock in CHAR is the step of CHAR, then the host's move. -/
theorem step_of_char (s : State) (hst : s.st = .char) (hr : s.ports.rst = false) :
    step s = .next (hostClock (charStep s)) :=
  step_of_blockStep s _ hr (by simp only [blockStep, hst])

/-- Settles O30: LEN without the bits of COUNT raises its fault. -/
theorem lenUnderrunFaults : Obligations.LenUnderrunFaults := by
  intro s hst hr hl
  rw [step_of_len s hst hr, lenStep_of_not_avail s hl]
  rfl

/-- Settles O31: LEN takes the bits of COUNT, whose value a field of that width bounds. -/
theorem lenReadLoadsTheCount : Obligations.LenReadLoadsTheCount := by
  intro s hst hr hl
  refine ⟨takeValue_lt (lenWidth s) s hl, ?_⟩
  rw [step_of_len s hst hr, lenStep_of_avail s hl]
  rfl

/-- Settles O32: CHAR looks for the bits of the character before it looks at the buffer. -/
theorem charUnderrunFaults : Obligations.CharUnderrunFaults := by
  intro s hst hr hl
  rw [step_of_char s hst hr, charStep_of_not_avail s hl]
  rfl

/-- Where a character's bits remain, the bytes before it have left a cell of a buffer of `floor(L_MAX / 8)` (rule R90). -/
theorem Inv.olen_lt_of_char {s : State} (h : Inv s) (hst : s.st = .char) (hl : s.off + charWidth s ≤ s.stream.length)
    (hcap : s.params.lMax / 8 ≤ s.params.bufCap) : s.olen < s.params.bufCap := by
  have h8 : charWidth s = 8 := (h.char hst).1.charWidth_eq
  have hbits : 8 * s.olen ≤ s.off := h.eightBitsEach
  have hmax : s.stream.length ≤ s.params.lMax := h.length
  omega

/-- Settles O33: a full buffer is the second guard of CHAR, and by the invariant it does not arise with the default capacity. -/
theorem charOverflowFaults : Obligations.CharOverflowFaults := by
  intro s hst hr hl
  refine ⟨fun hfull => ?_, fun hinv hcap => Nat.ne_of_lt (hinv.olen_lt_of_char hst hl hcap)⟩
  rw [step_of_char s hst hr, charStep_of_full s hl (Nat.le_of_eq hfull.symm)]
  rfl

/-- CHAR APPEND written out, with the count compared before it is decremented (rule R91). -/
theorem charAppend_eq (s : State) : charAppend s = { s with
    off := s.off + charWidth s, buf := s.buf.write s.olen (charField s), olenR := s.olenR + 1, cnt := s.cnt - 1,
    st := if s.cnt = 1 then .mode else .char } := by
  simp only [charAppend, sub_eq_zero]
  rfl

/-- Settles O34: the buffer after the step is the buffer written at `OLEN`. -/
theorem charAppendStoresOneByte : Obligations.CharAppendStoresOneByte := by
  intro s hst hr hl hroom
  refine ⟨s.buf.write s.olen (charField s), read_write _ _ _, ?_, append_olen_of_room (charField s) s hroom⟩
  rw [step_of_char s hst hr, charStep_of_room s hl hroom, charAppend_eq]
  rfl

/-! ## A whole byte segment (42_byte_segment rule R92) -/

/-- `v` is `s` after the indicator and the COUNT field of a byte segment: `n` bytes are announced, `bits` remain, and nothing is
appended yet. -/
structure CountRead (w n : Nat) (bits : Bits) (s v : State) : Prop where
  st : v.st = if n = 0 then .mode else .char
  noReset : noReset v = true
  cnt : v.cnt.toNat = n
  charWidth : charWidth v = 8
  off : v.off = s.off + 4 + w
  rest : v.stream.drop v.off = bits
  olen : v.olen = s.olen
  buf : v.buf = s.buf
  params : v.params = s.params
  stopR : v.stopR = s.stopR
  fcauseR : v.fcauseR = s.fcauseR

/-- `t` is `s` after a whole byte segment: its bytes are appended in order and `rest` remains. -/
structure BytesAppended (w : Nat) (data : List Byte) (rest : Bits) (s t : State) : Prop where
  st : t.st = .mode
  noReset : noReset t = true
  cnt : t.cnt = 0
  off : t.off = s.off + 4 + w + 8 * data.length
  rest : t.stream.drop t.off = rest
  olen : t.olen = s.olen + data.length
  params : t.params = s.params
  stopR : t.stopR = s.stopR
  fcauseR : t.fcauseR = s.fcauseR
  cells : ∀ a, t.buf.read a = if s.olen ≤ a ∧ a < s.olen + data.length then data[a - s.olen]? else s.buf.read a

section Segment

variable {s v : State} {w n : Nat} {bits rest : Bits} {data : List Byte}

/-- Two steps read the indicator and the COUNT field. -/
theorem exists_countRead (hst : s.st = .mode) (hn : noReset s = true) (hw : lengthFieldBits .byte (tier s.verR) = some w)
    (hlt : n < 2 ^ w) (hd : s.stream.drop s.off = [false, true, false, false] ++ (bitsOfNat w n ++ bits)) :
    ∃ v, run 2 s = .next v ∧ CountRead w n bits s v := by
  obtain ⟨u, hu, hust, hulen, huchar, hun, huoff, _, hudrop, _, huolen, hubuf, _, huparams, hustop, hucause⟩ :=
    byte_open s w _ hst hn hw hd
  have hw' : w = 8 ∨ w = 16 := (byte_width_cases _ w hw).imp And.right And.right
  obtain ⟨v, hv, hvst, hvn, hvcnt, hvchar, hvoff, hvstream, _, hvolen, hvbuf, _, hvparams, hvstop, hvcause⟩ :=
    len_read u hust hun w hulen (by omega) (by omega) (by rw [hudrop]; simp)
  have hcount : natOfBits ((u.stream.drop u.off).take w) = n := by
    rw [hudrop, List.take_left' (length_bitsOfNat w n), natOfBits_bitsOfNat w n hlt]
  rw [hcount] at hvst hvcnt
  refine ⟨v, (run_succ 1 s u hu).trans (run_succ 0 u v hv), ?_⟩
  exact {
    st := hvst
    noReset := hvn
    cnt := hvcnt
    charWidth := hvchar.trans huchar
    off := by rw [hvoff, huoff]
    rest := by rw [hvstream, hvoff, ← List.drop_drop, hudrop, List.drop_left' (length_bitsOfNat w n)]
    olen := hvolen.trans huolen
    buf := hvbuf.trans hubuf
    params := hvparams.trans huparams
    stopR := hvstop.trans hustop
    fcauseR := hvcause.trans hucause }

/-- With room, CHAR appends the announced bytes in one step each. -/
theorem CountRead.exists_bytesAppended (h : CountRead w data.length (bitsOfBytes data ++ rest) s v)
    (hroom : s.olen + data.length ≤ s.params.bufCap) :
    ∃ t, run data.length v = .next t ∧ BytesAppended w data rest s t := by
  by_cases hz : data = []
  · subst hz
    exact ⟨v, rfl, {
      st := h.st
      noReset := h.noReset
      cnt := BitVec.eq_of_toNat_eq h.cnt
      off := h.off
      rest := h.rest
      olen := h.olen
      params := h.params
      stopR := h.stopR
      fcauseR := h.fcauseR
      cells := fun a => by rw [h.buf, List.length_nil, if_neg (by omega)] }⟩
  have hpos : 0 < data.length := List.length_pos_iff.2 hz
  have hloop := char_loop data.length v (by rw [h.st, if_neg (by omega)]) h.noReset h.charWidth h.cnt hpos
    (by rw [h.olen, h.params]; omega)
  rw [h.rest, readBytes_bits] at hloop
  obtain ⟨t, ht, htst, htn, htoff, htcnt, htolen, htcause, htframe, _, htrest, htcells⟩ := hloop
  exact ⟨t, ht, {
    st := htst
    noReset := htn
    cnt := htcnt
    off := by rw [htoff, h.off]
    rest := htrest
    olen := by rw [htolen, h.olen]
    params := htframe.params.trans h.params
    stopR := htframe.stopR.trans h.stopR
    fcauseR := htcause.trans h.fcauseR
    cells := by rwa [h.olen, h.buf] at htcells }⟩

/-- A whole byte segment with room for its bytes takes `2 + n` steps. -/
theorem exists_run_byteSegment (hst : s.st = .mode) (hn : noReset s = true)
    (hw : lengthFieldBits .byte (tier s.verR) = some w) (hlt : data.length < 2 ^ w)
    (hd : s.stream.drop s.off = byteSegmentBits s.params.saCode w data.length data ++ rest)
    (hroom : s.olen + data.length ≤ s.params.bufCap) :
    ∃ t, run (2 + data.length) s = .next t ∧ BytesAppended w data rest s t := by
  rw [byteSegmentBits_eq, List.append_assoc, List.append_assoc] at hd
  obtain ⟨v, hv, hread⟩ := exists_countRead hst hn hw hlt hd
  obtain ⟨t, ht, happ⟩ := hread.exists_bytesAppended hroom
  exact ⟨t, (run_add 2 _ s v hv).trans ht, happ⟩

/-- A stream that ends inside COUNT ends in FAULT, after the indicator. -/
theorem exists_run_underrunLen (hst : s.st = .mode) (hn : noReset s = true)
    (hw : lengthFieldBits .byte (tier s.verR) = some w)
    (hd : s.stream.drop s.off = [false, true, false, false] ++ rest) (hshort : rest.length < w) :
    ∃ t, run 2 s = .next t ∧ t.st = .fault ∧ t.fcauseR = .underrunLen ∧ t.off = s.off + 4 ∧ t.olen = s.olen := by
  obtain ⟨u, hu, hust, hulen, _, hun, huoff, _, hudrop, _, huolen, _⟩ := byte_open s w rest hst hn hw hd
  have hs : step u = .next (hostClock (raiseFault .underrunLen u)) := len_under u hust hun (by rw [hudrop, hulen]; exact hshort)
  refine ⟨_, (run_succ 1 s u hu).trans (run_succ 0 u _ hs), rfl, rfl, ?_, huolen⟩
  rw [hostClock_off _ (by simp), raiseFault_off, huoff]

/-- Where fewer bytes follow than are announced, CHAR appends those that do, and the next step is the fault. -/
theorem CountRead.exists_underrunChar (h : CountRead w n (bitsOfBytes data ++ rest) s v) (hdata : data.length < n)
    (hrest : rest.length < 8) (hroom : s.olen + data.length ≤ s.params.bufCap) :
    ∃ t, run (data.length + 1) v = .next t ∧ t.st = .fault ∧ t.fcauseR = .underrunChar ∧
      t.off = s.off + 4 + w + 8 * data.length ∧ t.olen = s.olen + data.length ∧
      ∀ k < data.length, t.buf.read (s.olen + k) = data[k]? := by
  have hbits : (bitsOfBytes data ++ rest).length = 8 * data.length + rest.length := by simp
  have hbytes : remaining v / 8 = data.length := by rw [remaining_eq, h.rest, hbits]; omega
  have hloop := char_loop n v (by rw [h.st, if_neg (by omega)]) h.noReset h.charWidth h.cnt (by omega)
    (by rw [hbytes, h.olen, h.params]; omega)
  rw [h.rest, readBytes_short n _ (by omega)] at hloop
  simp only [hbytes, h.olen, h.off] at hloop
  obtain ⟨t, ht, htst, htcause, htoff, htolen, _, _, htcells⟩ := hloop
  refine ⟨t, ht, htst, htcause, htoff, htolen, fun k hk => ?_⟩
  rw [htcells, if_pos (by omega), Nat.add_sub_cancel_left, bitsOfBytes_at data rest k hk]

end Segment

/-- Settles O39: the indicator and COUNT in two steps, then CHAR's steps as far as the stream goes. -/
theorem byteSegmentRunsWhole : Obligations.ByteSegmentRunsWhole := by
  intro s w n data rest hst hn hw hlt
  refine ⟨?whole, exists_run_underrunLen hst hn hw, ?short⟩
  case whole =>
    rintro hd rfl hroom
    obtain ⟨t, ht, happ⟩ := exists_run_byteSegment hst hn hw hlt hd hroom
    refine ⟨t, ht, happ.st, happ.off, happ.cnt, happ.olen, happ.stopR, happ.fcauseR, fun k hk => ?_, fun a ha => ?_⟩
    · rw [happ.cells, if_pos (by omega), Nat.add_sub_cancel_left]
    · rw [happ.cells, if_neg (by omega)]
  case short =>
    intro hd hdata hrest hroom
    rw [byteSegmentBits_eq, List.append_assoc, List.append_assoc] at hd
    obtain ⟨v, hv, hread⟩ := exists_countRead hst hn hw hlt hd
    obtain ⟨t, ht, hfault⟩ := hread.exists_underrunChar hdata hrest hroom
    have hsteps : 3 + data.length = 2 + (data.length + 1) := by omega
    exact ⟨t, by rw [hsteps, run_add 2 _ s v hv, ht], hfault⟩

/-! ## The round trip (42_byte_segment rule R93) -/

/-- In MODE before END, or before fewer than 4 bits, the next step is DONE, and nothing is appended. -/
theorem exists_step_done (s : State) (hst : s.st = .mode) (hr : s.ports.rst = false)
    (htail : remaining s ≤ 3 ∨ s.stream.drop s.off = [false, false, false, false]) :
    ∃ t, step s = .next t ∧ t.st = .done ∧ t.olen = s.olen ∧ t.buf = s.buf := by
  obtain hshort | hend := htail
  · exact ⟨_, noBitsStopsUnread s hst hr (by unfold remaining at hshort; omega), rfl, rfl, rfl⟩
  · obtain ⟨_, hstep⟩ := endStopsTheDecode s
    exact ⟨_, hstep [] hst hr hend, rfl, rfl, rfl⟩

/-- Settles O40: the start, the segment, and the step that finds the end. -/
theorem encodedBytesDecodeBack : Obligations.EncodedBytesDecodeBack := by
  intro s w data tail h hw hlt hroom hd htail
  have hdrop : (hostClock (startDecode s)).stream.drop (hostClock (startDecode s)).off = s.stream.drop s.off := by
    rw [hostClock_stream _ (by simp), hostClock_off _ (by simp), startDecode_stream, startDecode_off]
  have holen : (hostClock (startDecode s)).olen = 0 := startDecode_olen s
  obtain ⟨u, hu, happ⟩ := exists_run_byteSegment (s := hostClock (startDecode s)) rfl
    (noReset_step s _ h.noReset h.step_eq) hw hlt (hdrop.trans hd) (by rw [holen, Nat.zero_add]; exact hroom)
  have hcells : ∀ a < data.length, u.buf.read a = data[a]? := fun a ha => by
    rw [happ.cells, holen, if_pos (by omega), Nat.sub_zero]
  obtain ⟨t, ht, htst, htolen, htbuf⟩ := exists_step_done u happ.st (noReset_rst u happ.noReset)
    (by rwa [remaining_eq, happ.rest])
  refine ⟨t, ?_, htst, ?_⟩
  · have hsteps : data.length + 4 = (2 + data.length + 1) + 1 := by omega
    rw [hsteps, run_succ _ s _ h.step_eq, run_add _ 1 _ u hu, run_succ 0 u t ht, run_zero]
  · rw [decodeResult, if_pos htst, htolen, htbuf, happ.olen, holen, Nat.zero_add, cellsBelow_eq_some _ _ hcells]

/-! ## A buffer with room (42_byte_segment rule R90, 70_reset_and_hazards rule R112) -/

/-- A decode whose buffer has room for the bytes it holds and for every byte its unread bits can give. -/
structure HasRoom (s : State) : Prop where
  inv : Inv s
  noReset : noReset s = true
  running : busyFlag s = true ∨ ended s = true
  room : (8 * s.olen + remaining s) / 8 ≤ s.params.bufCap
  cause : s.fcauseR ≠ .overflow

/-- Only CHAR OVERFLOW sets the cause OVERFLOW (10_state rule R24). -/
theorem overflow_of_blockStep (s t : State) (hs : blockStep s = .next t) (ht : t.fcauseR = .overflow) :
    s.fcauseR = .overflow ∨
      (s.st = .char ∧ s.off + charWidth s ≤ s.stream.length ∧ s.params.bufCap ≤ s.olen) := by
  obtain ⟨t', ht', hc⟩ := blockStep_cases s
  rw [hs] at ht'; cases ht'
  obtain ⟨_, _, rfl⟩ | ⟨_, _, rfl⟩ | ⟨_, _, rfl⟩ | ⟨_, _, he⟩ | ⟨_, _, rfl⟩ | ⟨_, _, rfl⟩ |
    ⟨_, _, rfl⟩ | ⟨hst, hl, hfull, rfl⟩ | ⟨_, _, _, rfl⟩ | ⟨_, rfl⟩ := hc
  · cases ht -- START
  · exact .inl ht -- IDLE HOLD
  · exact .inl ht -- MODE, NO BITS
  · obtain ⟨_, _, _, _, _, _, _, hcause, _⟩ := indicatorFrame _ s t he
    exact .inl (hcause ▸ ht)
  · cases ht -- LEN UNDERRUN
  · exact .inl ht -- LEN READ
  · cases ht -- CHAR UNDERRUN
  · exact .inr ⟨hst, hl, hfull⟩
  · exact .inl ht -- CHAR APPEND
  · exact .inl ht -- DONE HOLD, FAULT HOLD

/-- Where a character's bits remain, such a buffer has a cell for it. -/
theorem HasRoom.olen_lt_of_char {s : State} (h : HasRoom s) (hst : s.st = .char)
    (hl : s.off + charWidth s ≤ s.stream.length) : s.olen < s.params.bufCap := by
  have h8 : charWidth s = 8 := (h.inv.char hst).1.charWidth_eq
  have hrem : 8 ≤ remaining s := by unfold remaining; omega
  have hroom : (8 * s.olen + remaining s) / 8 ≤ s.params.bufCap := h.room
  omega

theorem blockStep_of_ended (s : State) (h : ended s = true) : blockStep s = .next s := by
  obtain hst | hst := (ended_iff s).1 h <;> simp only [blockStep, hst, doneHold, faultHold]

/-- A clock of such a decode makes progress, or has ended and holds. -/
theorem HasRoom.progress {s t : State} (h : HasRoom s) (hs : blockStep s = .next t) : Progress s t := by
  obtain hbusy | hend := h.running
  · exact progress_blockStep s t h.inv hbusy hs
  · rw [blockStep_of_ended s hend] at hs
    cases hs
    exact .of_ended hend rfl le_rfl

/-- Every step keeps the room: an Append is paid with 8 of the unread bits. -/
theorem HasRoom.of_step {s t : State} (h : HasRoom s) (hs : step s = .next t) : HasRoom t := by
  obtain ⟨hr, _⟩ | ⟨_, u, hu, rfl⟩ := step_cases s t hs
  · rw [noReset_rst s h.noReset] at hr; cases hr
  obtain ⟨hbits, hend⟩ := h.progress hu
  have hrunning : busyFlag u = true ∨ ended u = true := hend.symm.imp And.left id
  have hni : u.st ≠ .idle := fun hidle => by simp [busyFlag, ended, hidle] at hrunning
  exact {
    inv := everyStepKeepsInv s _ h.inv hs
    noReset := noReset_step s _ h.noReset hs
    running := hrunning
    room := by
      rw [hostClock_olen, hostClock_params, remaining_hostClock u hni, blockStep_params s u hu]
      exact Nat.le_trans (Nat.div_le_div_right hbits) h.room
    cause := fun ho => by
      obtain hprev | ⟨hst, hl, hfull⟩ := overflow_of_blockStep s u hu ho
      · exact h.cause hprev
      · exact absurd (h.olen_lt_of_char hst hl) (Nat.not_lt.2 hfull) }

theorem Launch.hasRoom {s : State} (h : Launch s) (hroom : remaining s / 8 ≤ s.params.bufCap) :
    HasRoom (hostClock (startDecode s)) where
  inv := everyStepKeepsInv s _ h.inv h.step_eq
  noReset := noReset_step s _ h.noReset h.step_eq
  running := .inl rfl
  room := by
    have hrem : remaining (hostClock (startDecode s)) = remaining s := remaining_hostClock (startDecode s) (by simp)
    rw [hrem, hostClock_olen, startDecode_olen, Nat.mul_zero, Nat.zero_add]
    exact hroom
  cause := by simp

/-- Settles O53: the launch state has no fault cause, and after the start every step keeps the room. -/
theorem overflowUnreachableWithRoom : Obligations.OverflowUnreachableWithRoom := by
  intro n s t h hroom hrun
  cases n with
  | zero =>
    cases hrun
    simp [h.inv.fcauseR_eq_none, h.idle]
  | succ n =>
    rw [run_succ n s _ h.step_eq] at hrun
    exact (run_keeps HasRoom (fun _ _ => HasRoom.of_step) n _ t (h.hasRoom hroom) hrun).cause

end Sys2Proof.Machine

/-! PROOFS. The statements of 60_exceptions: the three faults, their precision, and the normal stops. -/

namespace Sys2Proof.Machine

/-! ## The three faults (60_exceptions rules R95, R97, R99) -/

/-- State `s` meets the condition of fault `c` (rule R95); CHAR looks for its bits before it looks at the buffer (rule R99). -/
inductive Raises (s : State) : FaultCause → Prop
  | underrunLen (hst : s.st = .len) (hl : s.stream.length < s.off + lenWidth s) : Raises s .underrunLen
  | underrunChar (hst : s.st = .char) (hl : s.stream.length < s.off + charWidth s) : Raises s .underrunChar
  | overflow (hst : s.st = .char) (hl : s.off + charWidth s ≤ s.stream.length) (hfull : s.params.bufCap ≤ s.olen) :
      Raises s .overflow

theorem Raises.ne_none {s : State} {c : FaultCause} (h : Raises s c) : c ≠ .none := by cases h <;> decide

/-- A clock in which a fault's condition holds raises that fault. -/
theorem Raises.blockStep_eq {s : State} {c : FaultCause} (h : Raises s c) : blockStep s = .next (raiseFault c s) := by
  cases h with
  | underrunLen hst hl => simp only [blockStep, hst, lenStep_of_not_avail s hl]
  | underrunChar hst hl => simp only [blockStep, hst, charStep_of_not_avail s hl]
  | overflow hst hl hfull => simp only [blockStep, hst, charStep_of_full s hl hfull]

/-- A faulting clock performs no Take (00_scope rule R10). -/
theorem Raises.curTake_eq_false {s : State} {c : FaultCause} (h : Raises s c) : curTake s = false := by
  cases h with
  | underrunLen hst hl => simp [curTake, curN, hst, (avail_false_iff _ s).2 hl]
  | underrunChar hst hl => simp [curTake, curN, hst, (avail_false_iff _ s).2 hl]
  | overflow hst hl hfull => simp [curTake, curN, hst, (bufFull_iff s).2 hfull]

/-- Only a fault's condition takes the block to FAULT: every other rule leaves ST elsewhere. -/
theorem exists_raises_of_blockStep (s t : State) (hs : blockStep s = .next t) (hst : s.st ≠ .fault)
    (ht : t.st = .fault) : ∃ c, Raises s c ∧ t = raiseFault c s := by
  obtain ⟨t', ht', hc⟩ := blockStep_cases s
  rw [hs] at ht'; cases ht'
  obtain ⟨_, _, rfl⟩ | ⟨_, _, rfl⟩ | ⟨_, _, rfl⟩ | ⟨_, _, he⟩ | ⟨hlen, hl, rfl⟩ | ⟨_, _, rfl⟩ |
    ⟨hchar, hl, rfl⟩ | ⟨hchar, hl, hfull, rfl⟩ | ⟨_, _, _, rfl⟩ | ⟨_, rfl⟩ := hc
  · simp at ht -- START
  · exact absurd ht hst -- IDLE HOLD
  · simp at ht -- MODE, NO BITS
  · -- MODE FETCH: ST is DONE, MODE or LEN
    obtain ⟨_, hu | ⟨_, hu⟩ | ⟨_, hu⟩, _⟩ := indicatorFrame _ s t he <;> cases ht.symm.trans hu
  · exact ⟨_, .underrunLen hlen hl, rfl⟩
  · simp [ite_eq_iff] at ht -- LEN READ
  · exact ⟨_, .underrunChar hchar hl, rfl⟩
  · exact ⟨_, .overflow hchar hl hfull, rfl⟩
  · simp [ite_eq_iff] at ht -- CHAR APPEND
  · exact absurd ht hst -- DONE HOLD, FAULT HOLD

/-- A step enters FAULT by raising one of the three faults, then the host moves. -/
theorem exists_raises_of_step (s t : State) (hs : step s = .next t) (hst : s.st ≠ .fault) (ht : t.st = .fault) :
    ∃ c, Raises s c ∧ t = hostClock (raiseFault c s) := by
  obtain ⟨_, rfl⟩ | ⟨_, u, hu, rfl⟩ := step_cases s t hs
  · cases ht
  · obtain ⟨c, hc, rfl⟩ := exists_raises_of_blockStep s u hu hst ht
    exact ⟨c, hc, rfl⟩

/-- Settles O42: the faulting step is `raiseFault` of a cause, then the host's move. -/
theorem faultsArePrecise : Obligations.FaultsArePrecise := by
  intro s t hs hst ht
  obtain ⟨c, hc, rfl⟩ := exists_raises_of_step s t hs hst ht
  exact ⟨c, hc.ne_none, rfl, hc.curTake_eq_false⟩

/-- A step from outside FAULT enters it exactly when a fault's condition holds. -/
theorem st_eq_fault_iff_of_step (s t : State) (hr : s.ports.rst = false) (hst : s.st ≠ .fault) (hs : step s = .next t) :
    t.st = .fault ↔ ∃ c, Raises s c := by
  refine ⟨fun ht => ?_, fun ⟨c, hc⟩ => ?_⟩
  · obtain ⟨c, hc, _⟩ := exists_raises_of_step s t hs hst ht
    exact ⟨c, hc⟩
  · cases hs.symm.trans (step_of_blockStep s _ hr hc.blockStep_eq)
    rfl

/-- A field starves when fewer bits remain than its width (10_state rules R27, R28). -/
theorem Inv.remaining_lt_iff {s : State} (h : Inv s) (n : Nat) : remaining s < n ↔ s.stream.length < s.off + n :=
  Nat.sub_lt_iff_lt_add' h.offset

/-- The conditions of the three faults over the registers, as rule R95 gives them. -/
theorem Inv.exists_raises_iff {s : State} (h : Inv s) :
    (∃ c, Raises s c) ↔
      (s.st = .len ∧ remaining s < s.lenwR.toNat) ∨ (s.st = .char ∧ remaining s < s.chwR.toNat) ∨
      (s.st = .char ∧ s.chwR.toNat ≤ remaining s ∧ s.olen = s.params.bufCap) := by
  constructor
  · rintro ⟨c, hc⟩
    cases hc with
    | underrunLen hst hl => exact .inl ⟨hst, (h.remaining_lt_iff _).2 hl⟩
    | underrunChar hst hl => exact .inr (.inl ⟨hst, (h.remaining_lt_iff _).2 hl⟩)
    | overflow hst hl hfull => exact .inr (.inr ⟨hst, Nat.le_sub_of_add_le' hl, Nat.le_antisymm h.room hfull⟩)
  · rintro (⟨hst, hl⟩ | ⟨hst, hl⟩ | ⟨hst, hl, hfull⟩)
    · exact ⟨_, .underrunLen hst ((h.remaining_lt_iff _).1 hl)⟩
    · exact ⟨_, .underrunChar hst ((h.remaining_lt_iff _).1 hl)⟩
    · exact ⟨_, .overflow hst (Nat.add_le_of_le_sub' h.offset hl) hfull.ge⟩

/-- A fault arises inside a byte segment, so MODE_R is the byte indicator (rule R95). -/
theorem Raises.modeR_eq {s : State} {c : FaultCause} (hc : Raises s c) (h : Inv s) : s.modeR = 0b0100 := by
  cases hc with
  | underrunLen hst _ => exact (h.len hst).mode
  | underrunChar hst _ | overflow hst _ _ => exact (h.char hst).1.mode

/-- The cause names the fault, an underrun of CHAR before an overflow (rules R95, R99). -/
theorem Raises.cause_eq {s : State} {c : FaultCause} (hc : Raises s c) (h : Inv s) :
    c = if s.st = .len then .underrunLen else if remaining s < s.chwR.toNat then .underrunChar else .overflow := by
  cases hc with
  | underrunLen hst _ => simp [hst]
  | underrunChar hst hl =>
    have hlt : remaining s < s.chwR.toNat := (h.remaining_lt_iff _).2 hl
    simp [hst, hlt]
  | overflow hst hl _ =>
    have hle : s.chwR.toNat ≤ remaining s := Nat.le_sub_of_add_le' hl
    simp [hst, hle.not_gt]

/-- Settles O41: the block faults exactly on the conditions of `Raises`, and `raiseFault` keeps the record. -/
theorem faultsAreExactlyThree : Obligations.FaultsAreExactlyThree := by
  intro s t h hr hst hs
  refine ⟨(st_eq_fault_iff_of_step s t hr hst hs).trans h.exists_raises_iff, fun ht => ?_⟩
  obtain ⟨c, hc, rfl⟩ := exists_raises_of_step s t hs hst ht
  exact ⟨hc.modeR_eq h, hostClock_off _ (by simp), rfl, rfl, rfl, rfl, hc.cause_eq h⟩

/-! ## The normal stops (60_exceptions rule R96) -/

/-- The block enters DONE from MODE only: where fewer than 4 bits remain, or by the instruction fetched. -/
theorem mode_of_blockStep_done (s t : State) (hs : blockStep s = .next t) (hst : s.st ≠ .done) (ht : t.st = .done) :
    s.st = .mode ∧ ((s.stream.length < s.off + 4 ∧ t = noBits s) ∨
      (s.off + 4 ≤ s.stream.length ∧ ∃ i, exec i s = .next t)) := by
  obtain ⟨t', ht', hc⟩ := blockStep_cases s
  rw [hs] at ht'; cases ht'
  obtain ⟨_, _, rfl⟩ | ⟨_, _, rfl⟩ | ⟨hmode, hl, rfl⟩ | ⟨hmode, hl, he⟩ | ⟨_, _, rfl⟩ | ⟨_, _, rfl⟩ |
    ⟨_, _, rfl⟩ | ⟨_, _, _, rfl⟩ | ⟨_, _, _, rfl⟩ | ⟨_, rfl⟩ := hc
  · simp at ht -- START
  · exact absurd ht hst -- IDLE HOLD
  · exact ⟨hmode, .inl ⟨hl, rfl⟩⟩
  · exact ⟨hmode, .inr ⟨hl, _, he⟩⟩
  · simp at ht -- LEN UNDERRUN
  · simp [ite_eq_iff] at ht -- LEN READ
  · simp at ht -- CHAR UNDERRUN
  · simp at ht -- CHAR OVERFLOW
  · simp [ite_eq_iff] at ht -- CHAR APPEND
  · exact absurd ht hst -- DONE HOLD, FAULT HOLD

/-- The reason of a stop on the indicator in MODE_R, by the mode of its code. -/
theorem stopR_of_mode_fetch (s t : State) (hst : s.st = .mode) (hr : s.ports.rst = false)
    (hl : s.off + 4 ≤ s.stream.length) (hs : step s = .next t) (ht : t.st = .done) :
    t.stopR = match modeFromCode s.params.saCode t.modeR with
      | none => .undefined
      | some .endMsg => .endMsg
      | some .byte => .badVersion
      | some _ => .unsupported := by
  obtain ⟨t', hs', _, _, _, harm⟩ := modeFetchTakesThenDispatches s hst hr hl
  cases hs'.symm.trans hs
  cases hm : modeFromCode s.params.saCode t.modeR with
  | none => rw [hm] at harm; exact harm.2
  | some m =>
    rw [hm] at harm
    cases m with
    | byte =>
      by_cases htier : tier s.verR = .none
      · simpa [supported, htier, ht] using harm
      · simp [supported, htier, ht] at harm -- the widths are latched: ST is LEN
    | sa => simp [supported, ht] at harm -- skipped: ST is MODE
    | endMsg | num | alnum | fnc1_1 | eci | kanji | fnc1_2 => simpa [supported, ht] using harm

/-- Settles O43: a stop is NO BITS or an instruction's, and no instruction touches FCAUSE_R, OLEN or a cell. -/
theorem stopsAreNotFaults : Obligations.StopsAreNotFaults := by
  intro s t hs hst ht
  obtain ⟨_, rfl⟩ | ⟨hr, u, hu, rfl⟩ := step_cases s t hs
  · cases ht
  obtain ⟨hmode, ⟨hl, rfl⟩ | ⟨hl, i, he⟩⟩ := mode_of_blockStep_done s u hu hst ht
  · exact ⟨hmode, rfl, rfl, fun _ => rfl, (if_pos hl).symm⟩
  · obtain ⟨_, _, _, _, _, _, holen, hcause, _, _, hbuf⟩ := indicatorFrame i s u he
    exact ⟨hmode, hcause, holen, hbuf, by rw [if_neg (by omega)]; exact stopR_of_mode_fetch s _ hmode hr hl hs ht⟩

end Sys2Proof.Machine

/-! PROOFS. The statement of 70_reset_and_hazards: reset. -/

namespace Sys2Proof.Machine

/-- No Take is issued in a reset clock, whatever the state (rule R109). -/
theorem curTake_of_reset (s : State) (hr : s.ports.rst = true) : curTake s = false := by
  simp [curTake, curN, hr]

/-- Settles O25: a clock with `rst = 1` is `resetBlock`, whose fields are the stated values by definition. -/
theorem resetSetsEveryRegister : Obligations.ResetSetsEveryRegister :=
  fun s hr => ⟨step_of_reset s hr, curTake_of_reset s hr⟩

end Sys2Proof.Machine
